-- ==== Sys2Proof/Word.lean ====
section
/-!
DEFINITION. The two widths of the command interface: a byte, and the 32-bit word that a command and a response are
(30_encoding.md R43, R48).
-/

namespace Sys2Proof

/-- A byte, as a byte-wide platform adapter carries it (20_memory.md R33). -/
abbrev Byte := BitVec 8

/-- A command word or a response word: 32 bits, transferred whole (20_memory.md R33). -/
abbrev Word := BitVec 32

end Sys2Proof
end

