-- ==== Sys2Proof/Config.lean ====
section
/-!
DEFINITION. The implementation parameters of 00_scope.md R5. The ones the spec calls configurable (FS, AM_DMIN, the
gain table and its default) are fields of `Config`, which every generator takes as an argument; `Config.table` is the
column of values of R5, at which the machine runs (log 7). The others are constants under the names of R5. The
parameters R5 leaves OPEN are constants with no body (log 8).
-/

namespace Sys2Proof

/-- The ten generators (30_encoding.md R49). -/
inductive Selector where
  | white | pink | brown | blue | violet | sine | amTremolo | ringMod | feedbackHowl | granular
deriving DecidableEq, Repr

/-- The configurable parameters of 00_scope.md R5 (93_implementation_defined.md section 1, rows 3, 6 and 8). -/
structure Config where
  /-- FS, samples per second. -/
  fs : Nat
  /-- AM_DMIN, the floor of the AM_TREMOLO envelope, Q1.15. -/
  amDmin : Int
  /-- GAIN_TABLE: the normalization gains, UQ1.15. -/
  gainTable : List (Selector × BitVec 16)
  /-- DEFAULT_GAIN, for a selector with no entry in GAIN_TABLE. -/
  defaultGain : BitVec 16
deriving DecidableEq, Repr

namespace Config

/-- The values of 00_scope.md R5. -/
def table : Config where
  fs := 11025
  amDmin := 6554
  gainTable :=
    [(.white, 18022), (.pink, 32768), (.brown, 32768), (.blue, 32768), (.violet, 32768), (.sine, 32768),
     (.amTremolo, 32768), (.ringMod, 32768), (.feedbackHowl, 32768), (.granular, 32768)]
  defaultGain := 32768

/-- The configurations a part may be built with. Gains in [0, 1.0] are 10_state.md R14's. A positive sample rate and an
envelope floor in [0, 32767] are the model's choice (log 14): 45_amplitude_modulator.md R81 calls the floor Q1.15 and the
envelope [AM_DMIN, 32767], and names no range. No step asks whether its configuration is legal. -/
def Legal (c : Config) : Prop :=
  0 < c.fs ∧ 0 ≤ c.amDmin ∧ c.amDmin ≤ 32767 ∧ c.defaultGain.toNat ≤ 32768 ∧
    ∀ e ∈ c.gainTable, e.2.toNat ≤ 32768

/-! The random source (decisions D16, D17). -/
def LFSR_MASK : BitVec 32 := 0x80200003
def DRAW_STEPS : Nat := 32
def SEED_WHITE : BitVec 32 := 0x12345678
def SEED_PINK : BitVec 32 := 0x9E3779B9
def SEED_BROWN : BitVec 32 := 0x2545F491
def SEED_BLUE : BitVec 32 := 0x6C8E9CF5
def SEED_VIOLET : BitVec 32 := 0x3C6EF372
def SEED_SINE : BitVec 32 := 0xA54FF53A
def SEED_HOWL : BitVec 32 := 0x510E527F
def SEED_GRAN : BitVec 32 := 0x1F83D9AB

/-! The noise colors. PINK_N = 16 is the number of octave registers in the state. -/
def PINK_SHIFT : Nat := 4
def BROWN_DECAY : Int := 32702
def BROWN_STEP_SHIFT : Nat := 5

/-! Oscillator frequencies, UQ16.16 Hz, and the SINE jitter. -/
def F_SINE : Nat := 28835840
def JITTER_BITS : Nat := 18
def F_AM_C : Nat := 28835840
def F_AM_L : Nat := 327680
def F_RING_A : Nat := 28835840
def F_RING_B : Nat := 19660800

/-! The feedback howl. -/
def F_HOWL_LO : Nat := 19660800
def F_HOWL_HI : Nat := 98304000
def F_HOWL_SWEEP : Nat := 6554
def HOWL_RK : Int := 8235
def HOWL_NOISE_AMP : Int := 655
def HOWL_B0 : Int := 1073741824
def HOWL_DRIVE : Int := 4
def HOWL_YCLAMP : Int := 131072

/-! The granular engine. GRAN_SLOTS = 8 is the number of slots in the state. -/
def GRAN_P_SPAWN : Int := 128
def F_GRAN_MIN : Nat := 13107200
def F_GRAN_MAX : Nat := 131072000
def GRAN_DUR_MIN : Int := 220
def GRAN_DUR_MAX : Int := 1102
def GRAN_AMP_MIN : Int := 6554
def GRAN_AMP_MAX : Int := 19661
def GRAN_K : Int := 163840
def GRAN_AMP_FLOOR : Int := 16

/-- A_NATIVE: the native output scale of each generator (48_algorithm_multiplexer.md R94). -/
def A_NATIVE : Selector → Int
  | .white | .pink | .brown | .blue | .violet | .sine | .amTremolo | .ringMod => 127
  | .feedbackHowl => 120
  | .granular => 110

/-! Control registers. -/
def RESET_SEL : BitVec 8 := 0x00
def RESET_MG : BitVec 16 := 32768

/-! The OPEN parameters (70_reset_and_hazards.md R117): nothing is known of their values and no step reads them. -/

/-- CLK_HZ: the block's clock frequency. UNVERIFIED, log 8; safe. -/
opaque clkHz : Nat
/-- PRODUCE_LATENCY: clock cycles from a PRODUCE accepted to its response. UNVERIFIED, log 8; safe. -/
opaque produceLatency : Nat
/-- CMD_LATENCY: clock cycles from any other command accepted to its response. UNVERIFIED, log 8; safe. -/
opaque cmdLatency : Nat

/-- What R117 asks of an implementation: the PRODUCE latency, plus the longest wait behind a command of the other
port, takes less than one sample period. No step depends on it. -/
def MeetsDeadline (c : Config) : Prop :=
  (produceLatency + max produceLatency cmdLatency) * c.fs < clkHz

/-- Which way the assembler rounds a q fraction whose value in UQ1.15 units is exactly half way between two integers:
true is away from zero. 30_encoding.md R50 says only "rounded to nearest" (log 10). The arguments are whether the fraction
has a minus sign, its digits read as one number, and how many of them follow the point: x and -x are free apart. -/
opaque qTieAway : Bool → Nat → Nat → Bool

end Config

end Sys2Proof
end

