-- ==== Sys2Proof/Machine/Arith.lean ====
section
/-!
DEFINITION. The pseudocode primitives of 00_scope.md R7 and R8. Rules compute on mathematical integers; a value is
reduced to a width only where a rule says so.
-/

namespace Sys2Proof.Machine

/-- `a >> n`: the arithmetic right shift, floor(a / 2^n) for every integer a (R8). -/
def asr (a : Int) (n : Nat) : Int := a / 2 ^ n

/-- `tdiv(a, b)`: the quotient truncated toward zero (R8). -/
def tdiv (a b : Int) : Int := Int.tdiv a b

/-- `clamp(v, lo, hi)` (R8). -/
def clamp (v lo hi : Int) : Int := if v < lo then lo else if hi < v then hi else v

/-- `sext_N(v)`: the sN value whose N low bits are those of v (R8). -/
def sext (n : Nat) (v : Int) : Int := (BitVec.ofInt n v).toInt

/-- `wrap32(v)`: v mod 2^32, a u32 (R8). -/
def wrap32 (v : Int) : BitVec 32 := BitVec.ofInt 32 v

/-- A u32 or u16 state value as the integer the pseudocode computes with (R7). -/
def uint {n : Nat} (v : BitVec n) : Int := (v.toNat : Int)

/-- Trailing zero bits of v among its `n` low bits. -/
def ctz : Nat → Nat → Nat
  | 0, _ => 0
  | n + 1, v => if v % 2 = 1 then 0 else ctz n (v / 2) + 1

/-- `ctz32(v)`: the number of trailing zero bits, 32 for v = 0 (R8). -/
def ctz32 (v : BitVec 32) : Nat := ctz 32 v.toNat

/-- The native scaling every generator ends with (48_algorithm_multiplexer.md R94). -/
def native (v a : Int) : Int := asr (v * a) 15

end Sys2Proof.Machine
end

