-- ==== Sys2Proof/Machine/Gain.lean ====
section
/-!
DEFINITION. fixed_point_multiplier and output_normalizer (49_gain_and_output_normalizer.md).
-/

namespace Sys2Proof.Machine

/-- The fixed-point multiplier: the exact product (R97). -/
def gainProduct (raw g m : Int) : Int := raw * g * m

/-- The output normalizer (R98): scale back truncating toward zero, clamp, re-center. -/
def normalizeSample (raw g m : Int) : Int := clamp (tdiv (gainProduct raw g m) (2 ^ 30)) (-128) 127 + 128

/-- `clampMG(gv)` (R99). -/
def clampMG (gv : Int) : Int := clamp gv 0 32768

end Sys2Proof.Machine
end

