-- ==== Sys2Proof/Machine/Operands.lean ====
section
/-!
DEFINITION. The operand forms of 30_encoding.md R44, R45 and R49. Format Z has none. SELV is a selector code, used
unchanged. GAIN24 is read as a signed integer.
-/

namespace Sys2Proof

/-- The selector code (30_encoding.md R49). -/
def Selector.code : Selector → BitVec 8
  | .white => 0x00
  | .pink => 0x01
  | .brown => 0x02
  | .blue => 0x03
  | .violet => 0x04
  | .sine => 0x05
  | .amTremolo => 0x06
  | .ringMod => 0x07
  | .feedbackHowl => 0x08
  | .granular => 0x09

/-- The generator a selector code names; none for the unsupported codes 0x0A-0xFF (R49). -/
def Selector.ofCode (s : BitVec 8) : Option Selector :=
  match s.toNat with
  | 0 => some .white
  | 1 => some .pink
  | 2 => some .brown
  | 3 => some .blue
  | 4 => some .violet
  | 5 => some .sine
  | 6 => some .amTremolo
  | 7 => some .ringMod
  | 8 => some .feedbackHowl
  | 9 => some .granular
  | _ => none

namespace Machine

/-- gv = sext_24(GAIN24), in UQ1.15 units (R45). -/
def gainOperand (gain24 : BitVec 24) : Int := sext 24 gain24.toNat

end Machine

end Sys2Proof
end

