-- ==== Sys2Proof/Syntax.lean ====
section
/-!
DEFINITION. The seven commands of DDN-CMD version 1 (30_encoding.md R46), one constructor each, with the operand field
of its format (R44): none for Z, SELV for S8, GAIN24 for G24. The fields have exactly the widths of the encoding, so
no term of `Instr` is out of range.
-/

namespace Sys2Proof

/-- A command, decoded. -/
inductive Instr where
  /-- NOP, 40_commands.md R52. -/
  | nop
  /-- PRODUCE, R53. -/
  | produce
  /-- SETSEL SELV, R55. -/
  | setsel (selv : BitVec 8)
  /-- GETSEL, R56. -/
  | getsel
  /-- SETMG GAIN24, R57: the whole operand field, whose signed reading is `gv` (R45). -/
  | setmg (gain24 : BitVec 24)
  /-- GETMG, R58. -/
  | getmg
  /-- GETNG SELV, R59. -/
  | getng (selv : BitVec 8)
deriving DecidableEq, Repr

end Sys2Proof
end

