-- ==== Sys2Proof/WellFormed.lean ====
section
/-!
DEFINITION. Which words are commands: the match and mask rows of 30_encoding.md R46. A term of `Instr` is well formed by
its type (its operand fields have the encoding's widths), so the check that can fail is on WORDS: a word is well formed
when it matches a row, and a word that matches none is an error word (R46, R47).
-/

namespace Sys2Proof

/-- The operand formats of 30_encoding.md R44. -/
inductive Format where
  | Z | S8 | G24
deriving DecidableEq, Repr

/-- One row of the match and mask table of R46. -/
structure OpcodeRow where
  mnemonic : String
  format : Format
  pattern : Word
  mask : Word
deriving DecidableEq, Repr

/-- The table of R46, in opcode order. -/
def opcodeRows : List OpcodeRow :=
  [⟨"NOP", .Z, 0x00000000, 0xFFFFFFFF⟩,
   ⟨"PRODUCE", .Z, 0x01000000, 0xFFFFFFFF⟩,
   ⟨"SETSEL", .S8, 0x02000000, 0xFFFFFF00⟩,
   ⟨"GETSEL", .Z, 0x03000000, 0xFFFFFFFF⟩,
   ⟨"SETMG", .G24, 0x04000000, 0xFF000000⟩,
   ⟨"GETMG", .Z, 0x05000000, 0xFFFFFFFF⟩,
   ⟨"GETNG", .S8, 0x06000000, 0xFFFFFF00⟩]

/-- "a word w is the command when (w AND mask) = match" (R46). -/
def OpcodeRow.accepts (r : OpcodeRow) (w : Word) : Bool := w &&& r.mask == r.pattern

/-- A word that some row accepts: a command, not an error word. -/
def wordWellFormed (w : Word) : Bool := opcodeRows.any (·.accepts w)

/-- The row of R46 that a command belongs to. -/
def Instr.row : Instr → OpcodeRow
  | .nop => ⟨"NOP", .Z, 0x00000000, 0xFFFFFFFF⟩
  | .produce => ⟨"PRODUCE", .Z, 0x01000000, 0xFFFFFFFF⟩
  | .setsel _ => ⟨"SETSEL", .S8, 0x02000000, 0xFFFFFF00⟩
  | .getsel => ⟨"GETSEL", .Z, 0x03000000, 0xFFFFFFFF⟩
  | .setmg _ => ⟨"SETMG", .G24, 0x04000000, 0xFF000000⟩
  | .getmg => ⟨"GETMG", .Z, 0x05000000, 0xFFFFFFFF⟩
  | .getng _ => ⟨"GETNG", .S8, 0x06000000, 0xFFFFFF00⟩

end Sys2Proof
end

