-- ==== Sys2Proof/Decode.lean ====
section
/-!
DEFINITION. The decoder of 40_commands.md R51, the error causes of 60_exceptions.md R103, the byte order of a byte-wide
adapter (20_memory.md R33), and the encoder of 30_encoding.md R43-R46.
-/

namespace Sys2Proof

/-- Why a word is no command (60_exceptions.md R103). -/
inductive CmdError where
  /-- RESERVED_OPCODE: OP is in 0x07-0xFF. -/
  | reservedOpcode
  /-- NONZERO_MBZ: OP is defined and a must-be-zero bit of its format is 1. -/
  | nonzeroMbz
deriving DecidableEq, Repr

/-- The error code of R103. -/
def CmdError.code : CmdError → BitVec 16
  | .reservedOpcode => 0x0001
  | .nonzeroMbz => 0x0002

/-! The fields of a command word (30_encoding.md R43, R44). -/

/-- OP, word[31:24]. -/
def opField (w : Word) : BitVec 8 := w.extractLsb' 24 8
/-- OPND, word[23:0]: the must-be-zero bits of format Z, and the field GAIN24 of format G24. -/
def opndField (w : Word) : BitVec 24 := w.extractLsb' 0 24
/-- word[23:8]: the must-be-zero bits of format S8. -/
def mbzS8Field (w : Word) : BitVec 16 := w.extractLsb' 8 16
/-- SELV, word[7:0]. -/
def selvField (w : Word) : BitVec 8 := w.extractLsb' 0 8

/-- The command of a defined opcode whose must-be-zero bits are zero. -/
def commandOf (w : Word) : Instr :=
  match (opField w).toNat with
  | 0 => .nop
  | 1 => .produce
  | 2 => .setsel (selvField w)
  | 3 => .getsel
  | 4 => .setmg (opndField w)
  | 5 => .getmg
  | _ => .getng (selvField w)

/-- Decode a word, in the order of R51: the opcode first, then the must-be-zero bits of its format. -/
def decode (w : Word) : Except CmdError Instr :=
  let op := opField w
  if 0x07 ≤ op.toNat then .error .reservedOpcode
  else if (op = 0x00 ∨ op = 0x01 ∨ op = 0x03 ∨ op = 0x05) ∧ opndField w ≠ 0 then .error .nonzeroMbz
  else if (op = 0x02 ∨ op = 0x06) ∧ mbzS8Field w ≠ 0 then .error .nonzeroMbz
  else .ok (commandOf w)

/-- The word a byte-wide adapter assembles: byte 0 is bits [7:0] and byte 3 is bits [31:24] (20_memory.md R33). -/
def wordOfBytes (b0 b1 b2 b3 : Byte) : Word := b3 ++ b2 ++ b1 ++ b0

/-- The four bytes of a word in the order a byte-wide adapter carries them (R33). -/
def bytesOfWord (w : Word) : List Byte :=
  [w.extractLsb' 0 8, w.extractLsb' 8 8, w.extractLsb' 16 8, w.extractLsb' 24 8]

/-- Why bytes from an adapter give no command. -/
inductive ByteReject where
  /-- Fewer than four bytes: "a transfer of fewer than 32 bits is not a command and has no effect" (R34). -/
  | incomplete
  /-- Four bytes that make an error word. -/
  | error (e : CmdError)
deriving DecidableEq, Repr

/-- Decode the first word of a stream of bytes, and give the bytes after it. -/
def decodeBytes : List Byte → Except ByteReject (Instr × List Byte)
  | b0 :: b1 :: b2 :: b3 :: rest =>
    match decode (wordOfBytes b0 b1 b2 b3) with
    | .ok i => .ok (i, rest)
    | .error e => .error (.error e)
  | _ => .error .incomplete

/-- The word whose bits are the low `nbits` bits of `w`, the rest 0: a command is one word, and the opcode table numbers
its bits as the word does. -/
def tableWord (nbits w : Nat) : Word := BitVec.ofNat 32 (w % 2 ^ nbits)

/-- The command the decoder reads from a word given as the opcode table numbers its bits. -/
def decodeTableWord (nbits w : Nat) : Option Instr :=
  match decode (tableWord nbits w) with
  | .ok i => some i
  | .error _ => none

/-- The word of a command: OP on top, then the operand of its format (R43, R44, R46). -/
def encode : Instr → Word
  | .nop => (0x00#8 ++ 0#24 : BitVec 32)
  | .produce => (0x01#8 ++ 0#24 : BitVec 32)
  | .setsel selv => (0x02#8 ++ 0#16 ++ selv : BitVec 32)
  | .getsel => (0x03#8 ++ 0#24 : BitVec 32)
  | .setmg gain24 => (0x04#8 ++ gain24 : BitVec 32)
  | .getmg => (0x05#8 ++ 0#24 : BitVec 32)
  | .getng selv => (0x06#8 ++ 0#16 ++ selv : BitVec 32)

end Sys2Proof
end

