-- ==== Sys2Proof/Machine/Flags.lean ====
section
/-!
DEFINITION. The block has no stored flags (10_state.md R11); the one status a requester sees is the ERR bit of a response
word. This is the layout of that word (30_encoding.md R48).
-/

namespace Sys2Proof.Machine

/-- The response of a command that was no error: ERR = 0, bits [30:16] = 0, DATA = the result (R48). -/
def okWord (data : BitVec 16) : Word := data.setWidth 32

/-- The response of an error word: 0x80000000 OR the error code (60_exceptions.md R102). -/
def errWord (e : CmdError) : Word := 0x80000000 ||| e.code.setWidth 32

/-- ERR, bit [31] of a response (R48). -/
def respErr (r : Word) : Bool := r.getLsbD 31

/-- Bits [30:16] of a response, always 0 (R48). -/
def respZero (r : Word) : BitVec 15 := r.extractLsb' 16 15

/-- DATA, bits [15:0] of a response (R48). -/
def respData (r : Word) : BitVec 16 := r.extractLsb' 0 16

end Sys2Proof.Machine
end

