-- ==== Sys2Proof/Machine/State.lean ====
section
/-!
DEFINITION. The state of the block: every piece of state of 10_state.md (R12-R26), under the spec's names, and the
model's own fields for the two ports (10_state.md R28: the handshake is not architectural; 70_reset_and_hazards.md
R115: a port is a sequence of commands, each answered before the next is taken).
-/

namespace Sys2Proof.Machine

/-! ## Generator state (10_state.md R16) -/

/-- G.WHITE, R17. -/
structure White where
  lfsr : BitVec 32
deriving DecidableEq, Repr

/-- G.PINK, R18: PINK_N = 16 octave registers (00_scope.md R5). -/
structure Pink where
  lfsr : BitVec 32
  cnt : BitVec 32
  preg : Vector (BitVec 16) 16
deriving DecidableEq, Repr

/-- G.BROWN, R19: acc is a signed value in [-32768, 32768], held in an s18 register (log 6). -/
structure Brown where
  lfsr : BitVec 32
  acc : BitVec 18
deriving DecidableEq, Repr

/-- G.BLUE, R20. -/
structure Blue where
  lfsr : BitVec 32
  x1 : BitVec 16
  x2 : BitVec 16
deriving DecidableEq, Repr

/-- G.VIOLET, R21. -/
structure Violet where
  lfsr : BitVec 32
  x1 : BitVec 16
  x2 : BitVec 16
deriving DecidableEq, Repr

/-- G.SINE, R22. -/
structure Sine where
  lfsr : BitVec 32
  ph : BitVec 32
deriving DecidableEq, Repr

/-- G.AM_TREMOLO, R23. -/
structure AmTremolo where
  cph : BitVec 32
  lph : BitVec 32
deriving DecidableEq, Repr

/-- G.RING_MOD, R24. -/
structure RingMod where
  pha : BitVec 32
  phb : BitVec 32
deriving DecidableEq, Repr

/-- G.FEEDBACK_HOWL, R25: the delay lines are s32. -/
structure FeedbackHowl where
  lfsr : BitVec 32
  lph : BitVec 32
  x1 : BitVec 32
  x2 : BitVec 32
  y1 : BitVec 32
  y2 : BitVec 32
deriving DecidableEq, Repr

/-- One grain slot, R26. -/
structure Slot where
  /-- u1, 1 = active. -/
  act : Bool
  ph : BitVec 32
  inc : BitVec 32
  /-- Amplitude, Q1.15. -/
  amp : BitVec 16
  /-- Decay factor, Q1.15. -/
  dec : BitVec 16
  /-- Remaining lifetime in samples. -/
  rem : BitVec 16
deriving DecidableEq, Repr

/-- G.GRANULAR, R26: GRAN_SLOTS = 8 slots (00_scope.md R5). -/
structure Granular where
  lfsr : BitVec 32
  slot : Vector Slot 8
deriving DecidableEq, Repr

/-- The state of the ten generators, G.<name>. -/
structure Generators where
  white : White
  pink : Pink
  brown : Brown
  blue : Blue
  violet : Violet
  sine : Sine
  amTremolo : AmTremolo
  ringMod : RingMod
  feedbackHowl : FeedbackHowl
  granular : Granular
deriving DecidableEq, Repr

/-! ## The two ports and the world outside -/

/-- Port S, of the sample driver, and port C, of the control context (20_memory.md R38). -/
inductive PortId where
  | portS | portC
deriving DecidableEq, Repr

/-- What the world outside does next at the block's inputs. A list of these is one total order of the commands of the
two ports (20_memory.md R39), and every order that keeps each port's own order is some list (log 1). -/
inductive Event where
  /-- The command word w is accepted at port p. -/
  | command (p : PortId) (w : Word)
  /-- A command word from each port is accepted in the same clock cycle; the port S one executes first (R39). -/
  | sameCycle (ws wc : Word)
  /-- The byte adapter in front of port p receives a byte (20_memory.md R33; log 4). -/
  | byte (p : PortId) (b : Byte)
  /-- Reset is asserted and released. `inS` and `inC` are the commands that ports S and C had accepted and not yet
  answered: they are discarded with no response (70_reset_and_hazards.md R113). -/
  | reset (inS inC : Option Word)
deriving DecidableEq, Repr

/-- The model's record of one port: no rule reads it. -/
structure Port where
  /-- The bytes a byte adapter holds of a word that is not yet whole, oldest first (R33, R34; log 4). -/
  rx : List Byte
  /-- The response words returned at this port, oldest first (R115, R117; log 3). -/
  responses : List Word
deriving DecidableEq, Repr


/-- The state of the machine. -/
structure State where
  /-- SEL, the active selector (R12). -/
  sel : BitVec 8
  /-- MG, the master gain, UQ1.15 (R13). -/
  mg : BitVec 16
  /-- G, the generator state (R16). -/
  gen : Generators
  /-- What the outside world does from here on, in its total order (log 1). -/
  input : List Event
  /-- The port the executing command was accepted at: its response returns there (R115; log 2). -/
  cur : PortId
  /-- Port S. -/
  portS : Port
  /-- Port C. -/
  portC : Port
deriving DecidableEq, Repr

/-- Reasons for the machine to stop: there are none. "the rules of this spec are total, so no reachable state lacks a
next state" (60_exceptions.md R105); a malformed word is answered, and execution goes on (R102, R106). -/
inductive Fault where
deriving DecidableEq, Repr

/-- Reasons for the model to give an instruction no meaning. -/
inductive Refusal where
  /-- Raised only by an arm of `exec` whose instruction has no meaning yet; no arm raises it now. Safe. -/
  | notModelled (mnemonic : String)
deriving DecidableEq, Repr

/-- An inactive slot as reset leaves it: every field 0 (R26). -/
def Slot.reset : Slot := ⟨false, 0, 0, 0, 0, 0⟩

/-- The generators after reset (70_reset_and_hazards.md R113). -/
def Generators.reset : Generators where
  white := ⟨Config.SEED_WHITE⟩
  pink := ⟨Config.SEED_PINK, 0, Vector.replicate 16 0⟩
  brown := ⟨Config.SEED_BROWN, 0⟩
  blue := ⟨Config.SEED_BLUE, 0, 0⟩
  violet := ⟨Config.SEED_VIOLET, 0, 0⟩
  sine := ⟨Config.SEED_SINE, 0⟩
  amTremolo := ⟨0, 0⟩
  ringMod := ⟨0, 0⟩
  feedbackHowl := ⟨Config.SEED_HOWL, 0, 0, 0, 0, 0⟩
  granular := ⟨Config.SEED_GRAN, Vector.replicate 8 Slot.reset⟩

/-- The machine right after reset (R113), with nothing presented at either port. -/
def State.reset : State where
  sel := Config.RESET_SEL
  mg := Config.RESET_MG
  gen := Generators.reset
  input := []
  cur := .portS
  portS := ⟨[], []⟩
  portC := ⟨[], []⟩

end Sys2Proof.Machine
end

