-- ==== Sys2Proof/Machine/Ops.lean ====
section
/-!
DEFINITION. The named operations over State: reading and writing the control registers, accepting a command at a port,
answering it, answering an error word (the block's only exception: it saves nothing, changes no mode and there is no
return from it, 60_exceptions.md R102, R106), and reset.
-/

namespace Sys2Proof.Machine

/-- SEL <- v (40_commands.md R55). -/
def State.setSel (s : State) (v : BitVec 8) : State := { s with sel := v }

/-- MG <- v (R57). -/
def State.setMg (s : State) (v : BitVec 16) : State := { s with mg := v }

/-- G <- g. -/
def State.setGen (s : State) (g : Generators) : State := { s with gen := g }

/-- The inputs still to come. -/
def State.setInput (s : State) (input : List Event) : State := { s with input := input }

/-- The record of port p. -/
def State.port (s : State) : PortId → Port
  | .portS => s.portS
  | .portC => s.portC

/-- Replace the record of port p. -/
def State.setPort (s : State) : PortId → Port → State
  | .portS, q => { s with portS := q }
  | .portC, q => { s with portC := q }

/-- A command has been accepted at port p, with `rest` still to be presented (70_reset_and_hazards.md R115). -/
def State.accept (s : State) (p : PortId) (rest : List Event) : State := { s with cur := p, input := rest }

/-- The response r goes out at port p (R115). -/
def Port.answer (q : Port) (r : Word) : Port := { q with responses := q.responses ++ [r] }

/-- `respond(r)` (00_scope.md R10): the executing command ends, and its response returns at the port it came from. -/
def State.respond (s : State) (r : Word) : State := s.setPort s.cur ((s.port s.cur).answer r)

/-- `raise CmdError(code)` (00_scope.md R10, 60_exceptions.md R102): the command ends with the error response and writes
no state. -/
def State.raiseCmdError (s : State) (e : CmdError) : State := s.respond (errWord e)

/-- Reset, asserted and released (70_reset_and_hazards.md R113), with `rest` still to come. The responses already
returned stay on record (log 3), and a byte adapter's half word is dropped (log 4). -/
def State.assertReset (s : State) (rest : List Event) : State :=
  { State.reset with
    input := rest
    portS := { rx := [], responses := s.portS.responses }
    portC := { rx := [], responses := s.portC.responses } }

end Sys2Proof.Machine
end

