-- ==== Sys2Proof/Machine/Control.lean ====
section
/-!
DEFINITION. The meanings of the commands that run no generator: NOP, SETSEL, GETSEL, SETMG, GETMG, GETNG
(40_commands.md R52, R55-R59). None of them has an error of its own: a malformed word never becomes a command (R51).
-/

namespace Sys2Proof.Machine

/-- NOP (R52). -/
def execNop (s : State) : Host.Outcome State Fault Refusal := .next (s.respond 0)

/-- SETSEL (R55): SEL <- SELV. -/
def execSetsel (selv : BitVec 8) (s : State) : Host.Outcome State Fault Refusal :=
  .next ((s.setSel selv).respond 0)

/-- GETSEL (R56). -/
def execGetsel (s : State) : Host.Outcome State Fault Refusal := .next (s.respond (okWord (s.sel.setWidth 16)))

/-- SETMG (R57): MG <- clampMG(sext_24(GAIN24)). -/
def execSetmg (gain24 : BitVec 24) (s : State) : Host.Outcome State Fault Refusal :=
  .next ((s.setMg (BitVec.ofInt 16 (clampMG (gainOperand gain24)))).respond 0)

/-- GETMG (R58). -/
def execGetmg (s : State) : Host.Outcome State Fault Refusal := .next (s.respond (okWord s.mg))

/-- GETNG (R59), for a machine of configuration c. -/
def getngWith (c : Config) (selv : BitVec 8) (s : State) : State := s.respond (okWord (romNg c selv))

/-- GETNG (R59). -/
def execGetng (selv : BitVec 8) (s : State) : Host.Outcome State Fault Refusal :=
  .next (getngWith Config.table selv s)

end Sys2Proof.Machine
end

