-- ==== Sys2Proof/Machine/Noise.lean ====
section
/-!
DEFINITION. noise_lfsr_coloring (43_noise_lfsr_coloring.md): the LFSR, the draw, and WHITE, PINK and BROWN.
-/

namespace Sys2Proof.Machine

/-- `lfsr_step(L)` (R69): a right-shifting Galois LFSR. -/
def lfsrStep (l : BitVec 32) : BitVec 32 :=
  (l >>> 1) ^^^ (if l.getLsbD 0 then Config.LFSR_MASK else 0)

/-- `draw(L)`: DRAW_STEPS LFSR steps (R70). -/
def draw (l : BitVec 32) : BitVec 32 := lfsrStep^[Config.DRAW_STEPS] l

/-- u16(L) = L[15:0], unsigned (R70). -/
def u16 (l : BitVec 32) : Int := uint (l.setWidth 16)

/-- s16(L) = sext_16(L[15:0]) (R70). -/
def s16 (l : BitVec 32) : Int := sext 16 (uint l)

/-- WHITE (R72). -/
def genWhite (x : White) : White × Int :=
  let l := draw x.lfsr
  (⟨l⟩, native (s16 l) (Config.A_NATIVE .white))

/-- The sum of the octave registers (R73). -/
def pregSum (preg : Vector (BitVec 16) 16) : Int := (preg.toList.map BitVec.toInt).sum

/-- PINK (R73): the counter, register 0 from the first draw, and register ctz32(cnt) + 1 from a second draw when that
register exists. -/
def genPink (x : Pink) : Pink × Int :=
  let cnt := wrap32 (uint x.cnt + 1)
  let l := draw x.lfsr
  let preg := x.preg.set 0 (BitVec.ofInt 16 (s16 l))
  let i := ctz32 cnt
  let l' := if i ≤ 14 then draw l else l
  let preg' := if i ≤ 14 then preg.setIfInBounds (i + 1) (BitVec.ofInt 16 (s16 l')) else preg
  (⟨l', cnt, preg'⟩, native (asr (pregSum preg') Config.PINK_SHIFT) (Config.A_NATIVE .pink))

/-- BROWN (R74): decay, step, clamp. -/
def genBrown (x : Brown) : Brown × Int :=
  let l := draw x.lfsr
  let step := asr (s16 l) Config.BROWN_STEP_SHIFT
  let acc := clamp (asr (x.acc.toInt * Config.BROWN_DECAY) 15 + step) (-32768) 32768
  (⟨l, BitVec.ofInt 18 acc⟩, native acc (Config.A_NATIVE .brown))

end Sys2Proof.Machine
end

