-- ==== Sys2Proof/Machine/Phase.lean ====
section
/-!
DEFINITION. phase_accumulator (41_phase_accumulator.md) and the increments derived from the frequency parameters
(00_scope.md R6).
-/

namespace Sys2Proof.Machine

/-- `hz_to_inc(f_raw) = wrap32((f_raw << 16) div FS)` (R61), for a frequency in UQ16.16 Hz. -/
def hzToInc (c : Config) (fRaw : Nat) : BitVec 32 := BitVec.ofNat 32 (fRaw * 2 ^ 16 / c.fs)

/-! The increments of 00_scope.md R6. -/
def INC_SINE (c : Config) : BitVec 32 := hzToInc c Config.F_SINE
def INC_AM_C (c : Config) : BitVec 32 := hzToInc c Config.F_AM_C
def INC_AM_L (c : Config) : BitVec 32 := hzToInc c Config.F_AM_L
def INC_RING_A (c : Config) : BitVec 32 := hzToInc c Config.F_RING_A
def INC_RING_B (c : Config) : BitVec 32 := hzToInc c Config.F_RING_B
def INC_HOWL_LO (c : Config) : BitVec 32 := hzToInc c Config.F_HOWL_LO
def INC_HOWL_HI (c : Config) : BitVec 32 := hzToInc c Config.F_HOWL_HI
def INC_HOWL_SWEEP (c : Config) : BitVec 32 := hzToInc c Config.F_HOWL_SWEEP
def INC_GRAN_MIN (c : Config) : BitVec 32 := hzToInc c Config.F_GRAN_MIN
def INC_GRAN_MAX (c : Config) : BitVec 32 := hzToInc c Config.F_GRAN_MAX

/-- Phase advance: wrap32(ph + inc) (R62). -/
def advance (ph inc : BitVec 32) : BitVec 32 := wrap32 (uint ph + uint inc)

/-- The phase whose sine is the cosine of ph: a quarter turn on (R63). -/
def quarterOn (ph : Int) : BitVec 32 := wrap32 (ph + 0x40000000)

/-- The unipolar value of a bipolar LFO sample (R64). -/
def unipolar (l : Int) : Int := asr (l + 32768) 1

end Sys2Proof.Machine
end

