-- ==== Sys2Proof/Machine/Sine.lean ====
section
/-!
DEFINITION. sine_lookup_table (42_sine_lookup_table.md): the lookup and the SINE generator.
-/

namespace Sys2Proof.Machine

/-- ROM_SINE[j]. -/
def romSine (j : Nat) : Int := (ROM_SINE.getD j 0 : Nat)

/-- `sinlut(ph)` (R66): ph[31:22] is the index, its two top bits the quadrant, no interpolation. -/
def sinlut (ph : BitVec 32) : Int :=
  let idx := (ph.extractLsb' 22 10).toNat
  let k := idx % 256
  match idx / 256 with
  | 0 => romSine k
  | 1 => romSine (256 - k)
  | 2 => -romSine k
  | _ => -romSine (256 - k)

/-- The SINE jitter: sext_18(lfsr[17:0]) (R68). -/
def jitter (l : BitVec 32) : Int := sext Config.JITTER_BITS (uint l)

/-- SINE (R68). -/
def genSine (c : Config) (x : Sine) : Sine × Int :=
  let l := draw x.lfsr
  let ph := wrap32 (uint x.ph + uint (INC_SINE c) + jitter l)
  (⟨l, ph⟩, native (sinlut ph) (Config.A_NATIVE .sine))

end Sys2Proof.Machine
end

