-- ==== Sys2Proof/Machine/AmpMod.lean ====
section
/-!
DEFINITION. amplitude_modulator (45_amplitude_modulator.md): the multiply, the envelope, and AM_TREMOLO and RING_MOD.
-/

namespace Sys2Proof.Machine

/-- Modulator multiply (R80). -/
def ammul (c m : Int) : Int := asr (c * m) 15

/-- Unipolar envelope with floor (R81). -/
def amenv (c : Config) (l : Int) : Int := c.amDmin + asr ((32768 - c.amDmin) * unipolar l) 15

/-- AM_TREMOLO (R82). -/
def genAm (c : Config) (x : AmTremolo) : AmTremolo × Int :=
  let cph := advance x.cph (INC_AM_C c)
  let lph := advance x.lph (INC_AM_L c)
  let y := ammul (sinlut cph) (amenv c (sinlut lph))
  (⟨cph, lph⟩, native y (Config.A_NATIVE .amTremolo))

/-- RING_MOD (R83). -/
def genRing (c : Config) (x : RingMod) : RingMod × Int :=
  let pha := advance x.pha (INC_RING_A c)
  let phb := advance x.phb (INC_RING_B c)
  let y := ammul (sinlut pha) (sinlut phb)
  (⟨pha, phb⟩, native y (Config.A_NATIVE .ringMod))

end Sys2Proof.Machine
end

