-- ==== Sys2Proof/Machine/Biquad.lean ====
section
/-!
DEFINITION. iir_biquad (46_iir_biquad.md): the datapath with its state clamp, the resonator coefficients, the soft
clipper, and FEEDBACK_HOWL.
-/

namespace Sys2Proof.Machine

/-- Biquad coefficients, Q2.30 (R84). -/
structure Coefs where
  b0 : Int
  b1 : Int
  b2 : Int
  a1 : Int
  a2 : Int
deriving DecidableEq, Repr

/-- The datapath (R84): an exact sum, one floor shift, then the hard clamp. -/
def biquad (k : Coefs) (x0 x1 x2 y1 y2 : Int) : Int :=
  clamp (asr (k.b0 * x0 + k.b1 * x1 + k.b2 * x2 - k.a1 * y1 - k.a2 * y2) 30)
    (-Config.HOWL_YCLAMP) Config.HOWL_YCLAMP

/-- omr = 1 - r in Q2.30, for a centre increment (R85). -/
def howlOmr (incc : Int) : Int := asr (incc * Config.HOWL_RK) 18

/-- The pole radius in Q2.30 (R85). -/
def howlR (incc : Int) : Int := 2 ^ 30 - howlOmr incc

/-- Resonator coefficients from the centre increment (R85). -/
def howlcoef (incc : Int) : Coefs where
  b0 := Config.HOWL_B0
  b1 := 0
  b2 := 0
  a1 := -asr (howlR incc * sinlut (quarterOn incc)) 14
  a2 := asr (howlR incc * howlR incc) 30

/-- Soft clipper (R86). -/
def softclip (x : Int) : Int :=
  if 98304 ≤ x then 32768
  else if x ≤ -98304 then -32768
  else tdiv (x * (28991029248 + x * x)) (28991029248 + 9 * x * x)

/-- The swept centre increment, from the phase of the sweep LFO (R87). -/
def howlCentre (c : Config) (lph : BitVec 32) : Int :=
  uint (INC_HOWL_LO c) +
    asr ((uint (INC_HOWL_HI c) - uint (INC_HOWL_LO c)) * unipolar (sinlut lph)) 15

/-- FEEDBACK_HOWL (R87). -/
def genHowl (c : Config) (x : FeedbackHowl) : FeedbackHowl × Int :=
  let l := draw x.lfsr
  let x0 := asr (s16 l * Config.HOWL_NOISE_AMP) 15
  let lph := advance x.lph (INC_HOWL_SWEEP c)
  let k := howlcoef (howlCentre c lph)
  let y0 := biquad k x0 x.x1.toInt x.x2.toInt x.y1.toInt x.y2.toInt
  let h := softclip (y0 * Config.HOWL_DRIVE)
  (⟨l, lph, BitVec.ofInt 32 x0, x.x1, BitVec.ofInt 32 y0, x.y1⟩, native h (Config.A_NATIVE .feedbackHowl))

end Sys2Proof.Machine
end

