-- ==== Sys2Proof/Machine/Fir.lean ====
section
/-!
DEFINITION. fir_filter (44_fir_filter.md): the datapath, and BLUE and VIOLET.
-/

namespace Sys2Proof.Machine

/-- The three taps of a filter, Q1.15 (R76). -/
structure Taps where
  h0 : Int
  h1 : Int
  h2 : Int
deriving DecidableEq, Repr

/-- H_BLUE (R77). -/
def H_BLUE : Taps := ⟨16384, -16384, 0⟩

/-- H_VIOLET (R77). -/
def H_VIOLET : Taps := ⟨10923, -21846, 10923⟩

/-- The datapath (R76): an exact sum of products and one floor shift. -/
def fir (h : Taps) (x0 x1 x2 : Int) : Int := asr (h.h0 * x0 + h.h1 * x1 + h.h2 * x2) 15

/-- BLUE (R78). -/
def genBlue (x : Blue) : Blue × Int :=
  let l := draw x.lfsr
  let x0 := s16 l
  let y := fir H_BLUE x0 x.x1.toInt x.x2.toInt
  (⟨l, BitVec.ofInt 16 x0, x.x1⟩, native y (Config.A_NATIVE .blue))

/-- VIOLET (R79). -/
def genViolet (x : Violet) : Violet × Int :=
  let l := draw x.lfsr
  let x0 := s16 l
  let y := fir H_VIOLET x0 x.x1.toInt x.x2.toInt
  (⟨l, BitVec.ofInt 16 x0, x.x1⟩, native y (Config.A_NATIVE .violet))

end Sys2Proof.Machine
end

