-- ==== Sys2Proof/Machine/Granular.lean ====
section
/-!
DEFINITION. granular_spawner_with_mixing (47_granular_spawner.md): the spawner, the grain step and mixer, and GRANULAR.
-/

namespace Sys2Proof.Machine

/-- The lowest index of an inactive slot (R88). -/
def lowestFree (slot : Vector Slot 8) : Option Nat := slot.toList.findIdx? (fun S => !S.act)

/-- The grain that the three draws after a successful spawn test describe (R88): increment, duration, amplitude. -/
def newGrain (c : Config) (lInc lDur lAmp : BitVec 32) : Slot :=
  let inc := uint (INC_GRAN_MIN c) + asr (u16 lInc * (uint (INC_GRAN_MAX c) - uint (INC_GRAN_MIN c))) 16
  let dur := Config.GRAN_DUR_MIN + asr (u16 lDur * (Config.GRAN_DUR_MAX - Config.GRAN_DUR_MIN + 1)) 16
  let amp := Config.GRAN_AMP_MIN + asr (u16 lAmp * (Config.GRAN_AMP_MAX - Config.GRAN_AMP_MIN + 1)) 16
  let dec := 32768 - Config.GRAN_K / dur
  { act := true, ph := 0, inc := wrap32 inc, amp := BitVec.ofInt 16 amp, dec := BitVec.ofInt 16 dec,
    rem := BitVec.ofInt 16 dur }

/-- The spawner (R88): one draw for the spawn test on every sample, three more when a grain is spawned. -/
def spawn (c : Config) (q : Granular) : Granular :=
  let l0 := draw q.lfsr
  match (if u16 l0 < Config.GRAN_P_SPAWN then lowestFree q.slot else none) with
  | none => { q with lfsr := l0 }
  | some k =>
    let l1 := draw l0
    let l2 := draw l1
    let l3 := draw l2
    { lfsr := l3, slot := q.slot.setIfInBounds k (newGrain c l1 l2 l3) }

/-- One slot advances by one sample (R89): what it adds to the mix, from the amplitude before the decay, and the slot
after it, deactivated when its lifetime or its amplitude has run out. -/
def stepSlot (S : Slot) : Slot × Int :=
  if S.act then
    let ph := advance S.ph S.inc
    let term := asr (sinlut ph * uint S.amp) 15
    let amp := BitVec.ofInt 16 (asr (uint S.amp * uint S.dec) 15)
    let rem := BitVec.ofInt 16 (uint S.rem - 1)
    let ends : Bool := rem = 0 ∨ uint amp < Config.GRAN_AMP_FLOOR
    ({ S with act := !ends, ph := ph, amp := amp, rem := rem }, term)
  else (S, 0)

/-- Apply a function to every slot, in index order. -/
def mapSlots (f : Slot → Slot) (v : Vector Slot 8) : Vector Slot 8 :=
  ⟨⟨v.toList.map f⟩, by simp⟩

/-- Grain advance (R89): every slot steps. -/
def grainStep (q : Granular) : Granular := { q with slot := mapSlots (fun S => (stepSlot S).1) q.slot }

/-- The mixer (R89): the exact sum of what the slots add. -/
def grainMix (q : Granular) : Int := (q.slot.toList.map (fun S => (stepSlot S).2)).sum

/-- GRANULAR (R90): spawn, then step and mix. -/
def genGran (c : Config) (x : Granular) : Granular × Int :=
  let q := spawn c x
  (grainStep q, native (grainMix q) (Config.A_NATIVE .granular))

end Sys2Proof.Machine
end

