-- ==== Sys2Proof/Machine/Mux.lean ====
section
/-!
DEFINITION. algorithm_multiplexer (48_algorithm_multiplexer.md): one generator runs per PRODUCE.
-/

namespace Sys2Proof.Machine

/-- Run one generator by one sample: the generators after it, of which only this one has changed (R92), and its raw
sample. -/
def runGenerator (c : Config) (g : Generators) : Selector → Generators × Int
  | .white => let r := genWhite g.white; ({ g with white := r.1 }, r.2)
  | .pink => let r := genPink g.pink; ({ g with pink := r.1 }, r.2)
  | .brown => let r := genBrown g.brown; ({ g with brown := r.1 }, r.2)
  | .blue => let r := genBlue g.blue; ({ g with blue := r.1 }, r.2)
  | .violet => let r := genViolet g.violet; ({ g with violet := r.1 }, r.2)
  | .sine => let r := genSine c g.sine; ({ g with sine := r.1 }, r.2)
  | .amTremolo => let r := genAm c g.amTremolo; ({ g with amTremolo := r.1 }, r.2)
  | .ringMod => let r := genRing c g.ringMod; ({ g with ringMod := r.1 }, r.2)
  | .feedbackHowl => let r := genHowl c g.feedbackHowl; ({ g with feedbackHowl := r.1 }, r.2)
  | .granular => let r := genGran c g.granular; ({ g with granular := r.1 }, r.2)

/-- `Generate(s)` (R91): the generator the code names; an unsupported code gives raw 0 and changes nothing (R93). -/
def generate (c : Config) (s : BitVec 8) (g : Generators) : Generators × Int :=
  match Selector.ofCode s with
  | some x => runGenerator c g x
  | none => (g, 0)

end Sys2Proof.Machine
end

