-- ==== Sys2Proof/Machine/Produce.lean ====
section
/-!
DEFINITION. The meaning of PRODUCE (40_commands.md R53, R54).
-/

namespace Sys2Proof.Machine

/-- The sample of a PRODUCE of state s: the raw sample of the selected generator through the gain stage, with the
snapshots of SEL, MG and ROM_NG (R53, R54). -/
def sampleOf (c : Config) (s : State) : Int :=
  normalizeSample (generate c s.sel s.gen).2 (uint (romNg c s.sel)) (uint s.mg)

/-- PRODUCE (R53), for a machine of configuration c: the selected generator advances and its sample is the response. -/
def produceWith (c : Config) (s : State) : State :=
  (s.setGen (generate c s.sel s.gen).1).respond (wrap32 (sampleOf c s))

/-- PRODUCE (R53). -/
def execProduce (s : State) : Host.Outcome State Fault Refusal := .next (produceWith Config.table s)

end Sys2Proof.Machine
end

