-- ==== Sys2Proof/Machine/Dispatch.lean ====
section
/-! DEFINITION. One arm per command (40_commands.md R51, last line). -/

namespace Sys2Proof.Machine

def exec (i : Instr) (s : State) : Host.Outcome State Fault Refusal :=
  match i with
  | .nop => Sys2Proof.Machine.execNop s
  | .produce => Sys2Proof.Machine.execProduce s
  | .setsel selv => Sys2Proof.Machine.execSetsel selv s
  | .getsel => Sys2Proof.Machine.execGetsel s
  | .setmg gain24 => Sys2Proof.Machine.execSetmg gain24 s
  | .getmg => Sys2Proof.Machine.execGetmg s
  | .getng selv => Sys2Proof.Machine.execGetng selv s

end Sys2Proof.Machine
end

