-- ==== Sys2Proof/Machine/Ports.lean ====
section
/-!
DEFINITION. What the block does with its next input (20_memory.md R33, R34, R39; 70_reset_and_hazards.md R113, R115):
the place where the model takes its next command word from, since there is no program counter and no fetch (R11, R42).
-/

namespace Sys2Proof.Machine

/-- What the next input asks for. -/
inductive Fetched where
  /-- No command: the machine is in this state next. -/
  | quiet (s : State)
  /-- The word w is the next command of the total order; it executes in state s. -/
  | run (w : Word) (s : State)
deriving DecidableEq, Repr

/-- A byte reaches the adapter in front of port p: with the fourth byte the word is whole and is accepted; before that
the adapter waits for the rest (20_memory.md R33, R34; log 4). -/
def State.receiveByte (s : State) (p : PortId) (b : Byte) (rest : List Event) : Fetched :=
  match (s.port p).rx ++ [b] with
  | [b0, b1, b2, b3] =>
    .run (wordOfBytes b0 b1 b2 b3) ((s.setPort p ⟨[], (s.port p).responses⟩).accept p rest)
  | bs => .quiet ((s.setPort p ⟨bs, (s.port p).responses⟩).setInput rest)

/-- Take the next input. Idle ports change nothing (R115). Of two words accepted in the same cycle port S's executes
first, and port C's is then the next input (R39). -/
def State.fetch (s : State) : Fetched :=
  match s.input with
  | [] => .quiet s
  | .command p w :: rest => .run w (s.accept p rest)
  | .sameCycle ws wc :: rest => .run ws (s.accept .portS (.command .portC wc :: rest))
  | .byte p b :: rest => s.receiveByte p b rest
  | .reset _ _ :: rest => .quiet (s.assertReset rest)

/-- Present word w at port S, ahead of every other input: the next step runs it (log 9). -/
def State.presentWord (s : State) (w : Word) : State := s.setInput (.command .portS w :: s.input)

end Sys2Proof.Machine
end

