-- ==== Sys2Proof/Machine/Step.lean ====
section
/-!
DEFINITION. One step: take the next input, decode the command word if there is one, and execute it or answer its error
(40_commands.md R51, 60_exceptions.md R102). A command is one step (20_memory.md R35).
-/

namespace Sys2Proof.Machine

/-- A command word accepted at the port `s.cur` executes, or is answered with its error. -/
def runWord (w : Word) (s : State) : Host.Outcome State Fault Refusal :=
  match decode w with
  | .ok i => exec i s
  | .error e => .next (s.raiseCmdError e)

/-- One step of the machine. -/
def step (s : State) : Host.Outcome State Fault Refusal :=
  match s.fetch with
  | .quiet t => .next t
  | .run w t => runWord w t

/-- The state with a command word placed where the next step takes its command: at port S, first (log 9). -/
def State.withFetchWord (s : State) (nbits w : Nat) : State := s.presentWord (tableWord nbits w)

end Sys2Proof.Machine
end

