-- ==== Sys2Proof/Machine/Assembler.lean ====
section
/-!
DEFINITION. The assembler of 30_encoding.md R50: from the text of a command sequence to the inputs it stands for. It is
a tool beside the block; no step depends on it. What R50 leaves to the tool (which characters are blanks, that
mnemonics are in capitals, how a number is written where R50 does not say, a q fraction exactly half way) is log 10.
-/

namespace Sys2Proof.Asm

open Machine

/-- Why the assembler refuses a line. -/
inductive AsmError where
  | unknownMnemonic
  | missingOperand
  | extraOperand
  | badOperand
  /-- "An assembler refuses a number out of range rather than truncating it" (R50). -/
  | outOfRange
deriving DecidableEq, Repr

/-- A command or pseudo-command, with its operand as a number not yet checked. -/
inductive Stmt where
  | nop
  /-- `PRODUCE` is `PRODUCE 1`. -/
  | produce (n : Nat)
  | setsel (v : Int)
  | getsel
  | setmg (v : Int)
  | getmg
  | getng (v : Int)
  | mute
  | unity
  | select (s : Selector)
  | word (v : Nat)
deriving DecidableEq, Repr

/-- The operand is in its range (R50). -/
def Stmt.inRange : Stmt → Bool
  | .produce n => decide (1 ≤ n)
  | .setsel v | .getng v => decide (0 ≤ v ∧ v ≤ 255)
  | .setmg v => decide (-8388608 ≤ v ∧ v ≤ 8388607)
  | .word v => decide (v < 2 ^ 32)
  | .nop | .getsel | .getmg | .mute | .unity | .select _ => true

/-- The words of a statement whose operand is in range (R50, the table of pseudo-commands). -/
def Stmt.words : Stmt → List Word
  | .nop => [encode .nop]
  | .produce n => List.replicate n (encode .produce)
  | .setsel v => [encode (.setsel (BitVec.ofInt 8 v))]
  | .getsel => [encode .getsel]
  | .setmg v => [encode (.setmg (BitVec.ofInt 24 v))]
  | .getmg => [encode .getmg]
  | .getng v => [encode (.getng (BitVec.ofInt 8 v))]
  | .mute => [encode (.setmg (BitVec.ofInt 24 0))]
  | .unity => [encode (.setmg (BitVec.ofInt 24 32768))]
  | .select s => [encode (.setsel s.code)]
  | .word v => [BitVec.ofNat 32 v]

/-- Assemble one statement. -/
def Stmt.assemble (st : Stmt) : Except AsmError (List Word) :=
  if st.inRange then .ok st.words else .error .outOfRange

/-! ## Reading the text -/

/-- The selector names of R49. -/
def selectorOfName (cs : List Char) : Option Selector :=
  if cs = "WHITE".toList then some .white
  else if cs = "PINK".toList then some .pink
  else if cs = "BROWN".toList then some .brown
  else if cs = "BLUE".toList then some .blue
  else if cs = "VIOLET".toList then some .violet
  else if cs = "SINE".toList then some .sine
  else if cs = "AM_TREMOLO".toList then some .amTremolo
  else if cs = "RING_MOD".toList then some .ringMod
  else if cs = "FEEDBACK_HOWL".toList then some .feedbackHowl
  else if cs = "GRANULAR".toList then some .granular
  else none

/-- The value of a digit in base 10 or 16. -/
def digitVal (base : Nat) (c : Char) : Option Nat :=
  let n := c.toNat
  let v := if 48 ≤ n ∧ n ≤ 57 then n - 48
    else if 65 ≤ n ∧ n ≤ 70 then n - 55
    else if 97 ≤ n ∧ n ≤ 102 then n - 87
    else 16
  if v < base then some v else none

/-- Read digits after the value `acc`. -/
def readDigits (base : Nat) : List Char → Nat → Option Nat
  | [], acc => some acc
  | c :: cs, acc => (digitVal base c).bind fun d => readDigits base cs (acc * base + d)

/-- A decimal number, or a hexadecimal one after 0x. R50 gives the two for the number of format S8; that the number of a
G24 operand and the count of PRODUCE may be written either way too is the model's choice (log 10). -/
def readNat : List Char → Option Nat
  | '0' :: 'x' :: c :: cs => readDigits 16 (c :: cs) 0
  | c :: cs => readDigits 10 (c :: cs) 0
  | [] => none

/-- The operand of `.word`: hexadecimal only (R50). -/
def readHex : List Char → Option Nat
  | '0' :: 'x' :: c :: cs => readDigits 16 (c :: cs) 0
  | _ => none

/-- The digits of a q fraction as one number, and how many of them follow the point. The digits are decimal (R50), with at
least one on each side of a point; that the point and what follows it may be left out, so that 1q is 1.0q, is the model's
choice (log 10). -/
def readFraction (cs : List Char) : Option (Nat × Nat) :=
  match cs.span (· ≠ '.') with
  | ([], []) => none
  | (a, []) => (readDigits 10 a 0).map fun n => (n, 0)
  | (a, _ :: b) =>
    if a.isEmpty ∨ b.isEmpty then none else (readDigits 10 (a ++ b) 0).map fun n => (n, b.length)

/-- The magnitude of the integer nearest to ± (n / 10^k) × 32768 (R50), with a minus sign if `neg`; half way,
`Config.qTieAway` says, for each sign by itself (log 10). -/
def roundQ (neg : Bool) (n k : Nat) : Nat :=
  let q := n * 32768 / 10 ^ k
  let r := n * 32768 % 10 ^ k
  if 2 * r < 10 ^ k then q
  else if 10 ^ k < 2 * r then q + 1
  else if Config.qTieAway neg n k then q + 1 else q

/-- The magnitude of a G24 operand with a minus sign if `neg`, from the text after the sign: an integer, decimal or (the
model's choice, log 10) in 0x hexadecimal, or a decimal fraction with a q suffix. -/
def readMagnitude (neg : Bool) (cs : List Char) : Option Nat :=
  match cs.reverse with
  | 'q' :: ds => (readFraction ds.reverse).map fun f => roundQ neg f.1 f.2
  | _ => readNat cs

/-- A signed number; that a sign is only '-', before an integer in either base or a q fraction, is log 10. -/
def readSigned : List Char → Option Int
  | '-' :: cs => (readMagnitude true cs).map fun n => -(n : Int)
  | cs => (readMagnitude false cs).map fun n => (n : Int)

/-- The operand of format S8: a number, or a selector name. A negative number is read so that it is refused as out of
range (R50). -/
def readSelv (cs : List Char) : Option Int :=
  match selectorOfName cs with
  | some s => some s.code.toNat
  | none =>
    match cs with
    | '-' :: ds => (readNat ds).map fun n => -(n : Int)
    | _ => (readNat cs).map fun n => (n : Int)

/-- A statement with no operand. -/
def noOperand (st : Stmt) : List (List Char) → Except AsmError Stmt
  | [] => .ok st
  | _ => .error .extraOperand

/-- A statement with one operand. -/
def oneOperand {α : Type} (read : List Char → Option α) (mk : α → Stmt) : List (List Char) → Except AsmError Stmt
  | [] => .error .missingOperand
  | [t] => match read t with
    | some v => .ok (mk v)
    | none => .error .badOperand
  | _ => .error .extraOperand

/-- A mnemonic and its operands. -/
def parseStmt (m : List Char) (ops : List (List Char)) : Except AsmError Stmt :=
  if m = "NOP".toList then noOperand .nop ops
  else if m = "PRODUCE".toList then
    match ops with
    | [] => .ok (.produce 1)
    | _ => oneOperand readNat .produce ops
  else if m = "SETSEL".toList then oneOperand readSelv .setsel ops
  else if m = "GETSEL".toList then noOperand .getsel ops
  else if m = "SETMG".toList then oneOperand readSigned .setmg ops
  else if m = "GETMG".toList then noOperand .getmg ops
  else if m = "GETNG".toList then oneOperand readSelv .getng ops
  else if m = "MUTE".toList then noOperand .mute ops
  else if m = "UNITY".toList then noOperand .unity ops
  else if m = "SELECT".toList then oneOperand selectorOfName .select ops
  else if m = ".word".toList then oneOperand readHex .word ops
  else .error .unknownMnemonic

/-- A blank between tokens. -/
def isBlank (c : Char) : Bool := c = ' ' || c = '\t' || c = '\r'

/-- The tokens of a line; `acc` is the token being read, reversed. -/
def tokens : List Char → List Char → List (List Char)
  | [], acc => if acc.isEmpty then [] else [acc.reverse]
  | c :: cs, acc =>
    if isBlank c then (if acc.isEmpty then tokens cs [] else acc.reverse :: tokens cs [])
    else tokens cs (c :: acc)

/-- Split off the port tag; the default is port S (R50). How a tag stands in its line is log 10. -/
def portTag : List Char → PortId × List Char
  | 'S' :: ':' :: cs => (.portS, cs)
  | 'C' :: ':' :: cs => (.portC, cs)
  | cs => (.portS, cs)

/-- One line: nothing, or a port and a statement. R50 has one command per line; that a line with none (blank, only a comment,
or only a port tag) is read as nothing, and not refused, is the model's choice (log 10). -/
def parseLine (line : List Char) : Except AsmError (Option (PortId × Stmt)) :=
  let tagged := portTag ((line.takeWhile (· ≠ ';')).dropWhile isBlank)
  match tokens tagged.2 [] with
  | [] => .ok none
  | m :: ops => (parseStmt m ops).map fun st => some (tagged.1, st)

/-- The lines of a text; `acc` is the line being read, reversed. -/
def lines : List Char → List Char → List (List Char)
  | [], acc => [acc.reverse]
  | c :: cs, acc => if c = '\n' then acc.reverse :: lines cs [] else lines cs (c :: acc)

/-- The inputs of one line. -/
def assembleLine (line : List Char) : Except AsmError (List Event) :=
  match parseLine line with
  | .error e => .error e
  | .ok none => .ok []
  | .ok (some (p, st)) => st.assemble.map fun ws => ws.map (Event.command p)

/-- The inputs of a list of lines, in order. -/
def assembleLines : List (List Char) → Except AsmError (List Event)
  | [] => .ok []
  | l :: ls =>
    match assembleLine l, assembleLines ls with
    | .ok es, .ok fs => .ok (es ++ fs)
    | .error e, _ => .error e
    | _, .error e => .error e

/-- Assemble a text: one command per line (R50), the commands of both ports in the order of the lines. -/
def assemble (text : String) : Except AsmError (List Event) := assembleLines (lines text.toList [])

end Sys2Proof.Asm
end

