-- ==== Sys2Proof/Machine/Observe.lean ====
section
/-!
DEFINITION. The observation of a run: "the sequence of responses at each port for a finite or infinite sequence of
commands" (70_reset_and_hazards.md R117). State holds finitely many inputs, so an infinite sequence is observed through
its finite beginnings: each is presented to the block and run until it has been taken (log 15).
-/

namespace Sys2Proof.Machine

/-- Present the inputs es to the block in state s, with nothing after them, and run it until they have been taken. Each takes
one step, but for two words accepted in the same cycle, which take two; steps left over find idle ports. -/
def State.present (s : State) (es : List Event) : Host.Outcome State Fault Refusal :=
  Sys2Proof.core.run (2 * es.length) (s.setInput es)

/-- The observation of a finite run: the responses at port p once the inputs es have been taken, oldest first. -/
def State.responsesTo (s : State) (p : PortId) (es : List Event) : List Word :=
  match s.present es with
  | .next t => (t.port p).responses
  | .fault _ | .refused _ => []

/-- The observation of an infinite run, as far as its first n inputs. -/
def State.observation (s : State) (p : PortId) (es : Nat → Event) (n : Nat) : List Word :=
  s.responsesTo p ((List.range n).map es)

/-- In the infinite run r is response k at port p, counted from 0: it is so in the observation of some finite beginning. -/
def State.Observes (s : State) (p : PortId) (es : Nat → Event) (k : Nat) (r : Word) : Prop :=
  ∃ n, (s.observation p es n)[k]? = some r

/-- The input presents a whole command word at port p. -/
def Event.hasWordAt (p : PortId) : Event → Bool
  | .command q _ => q == p
  | .sameCycle _ _ => true
  | .byte _ _ | .reset _ _ => false

end Sys2Proof.Machine
end

