-- ==== Sys2Proof/Safety.lean ====
section
/-!
DEFINITION. What a good state is and what a good step is. `State.Legal` is the "Legal values" column of the summary
table of 10_state.md section 6 (with R26 for a grain slot): it holds after reset and every step keeps it, and it rules out
the states in which a stored value would be cut to its register's width (log 5).
-/

namespace Sys2Proof.Machine

/-- G.BROWN.acc is in [-1.0, 1.0] (R19). -/
def Brown.AccLegal (x : Brown) : Prop := -32768 ≤ x.acc.toInt ∧ x.acc.toInt ≤ 32768

/-- The delay lines of G.FEEDBACK_HOWL (R25 and the summary table). -/
def FeedbackHowl.LinesLegal (x : FeedbackHowl) : Prop :=
  (-655 ≤ x.x1.toInt ∧ x.x1.toInt ≤ 654) ∧ (-655 ≤ x.x2.toInt ∧ x.x2.toInt ≤ 654) ∧
  (-131072 ≤ x.y1.toInt ∧ x.y1.toInt ≤ 131072) ∧ (-131072 ≤ x.y2.toInt ∧ x.y2.toInt ≤ 131072)

/-- A grain slot (R26): amplitude, decay and lifetime in their ranges; an active slot has been written, and has at
least one sample to live (R89 deactivates it when none is left). -/
def Slot.Legal (S : Slot) : Prop :=
  S.amp.toNat ≤ 19661 ∧ (S.dec.toNat = 0 ∨ (32024 ≤ S.dec.toNat ∧ S.dec.toNat ≤ 32620)) ∧ S.rem.toNat ≤ 1102 ∧
  (S.act = true → 32024 ≤ S.dec.toNat ∧ 1 ≤ S.rem.toNat)

/-- Every slot of G.GRANULAR is legal. -/
def Granular.SlotsLegal (x : Granular) : Prop := ∀ S ∈ x.slot.toList, S.Legal

/-- No LFSR holds 0 (R27). -/
def Generators.LfsrsNonzero (g : Generators) : Prop :=
  g.white.lfsr ≠ 0 ∧ g.pink.lfsr ≠ 0 ∧ g.brown.lfsr ≠ 0 ∧ g.blue.lfsr ≠ 0 ∧ g.violet.lfsr ≠ 0 ∧
  g.sine.lfsr ≠ 0 ∧ g.feedbackHowl.lfsr ≠ 0 ∧ g.granular.lfsr ≠ 0

/-- The generator state holds legal values. -/
def Generators.Legal (g : Generators) : Prop :=
  g.LfsrsNonzero ∧ g.brown.AccLegal ∧ g.feedbackHowl.LinesLegal ∧ g.granular.SlotsLegal

/-- The master gain is in [0, 1.0] (R13). -/
def State.GainLegal (s : State) : Prop := s.mg.toNat ≤ 32768

/-- A byte adapter holds fewer than four bytes (20_memory.md R33; log 4). -/
def State.AdaptersLegal (s : State) : Prop := s.portS.rx.length < 4 ∧ s.portC.rx.length < 4

/-- Every stored value is legal. -/
def State.Legal (s : State) : Prop := s.gen.Legal ∧ s.GainLegal ∧ s.AdaptersLegal

/-- The machine steps on: neither a fault nor a refusal. -/
def State.StepsOn (s : State) : Prop := ∃ t, step s = .next t

end Sys2Proof.Machine
end

