-- ==== Sys2Proof/Certificates/Slice0/Obligations.lean ====
section
/-!
DEFINITION. What is claimed of the model, each claim from a rule of spec/. Values are written out from the rules as
arithmetic on integers and bit vectors (`/` on integers with a positive divisor is the floor, which is the rules' `>>`),
not as calls of the meanings, wherever the rule gives them so.
-/

namespace Sys2Proof.Claims

open Sys2Proof Sys2Proof.Machine

/-- From s to t one response r has gone out, at the port the executing command came from; nothing else of the ports, and
nothing of the inputs still to come, has changed. -/
def Answered (s t : State) (r : Word) : Prop :=
  t.input = s.input ∧ t.cur = s.cur ∧ (∀ p, (t.port p).rx = (s.port p).rx) ∧
  (t.port s.cur).responses = (s.port s.cur).responses ++ [r] ∧
  ∀ p, p ≠ s.cur → (t.port p).responses = (s.port p).responses

/-- Command i executed in s answers r and changes no register and no generator. -/
def OnlyAnswers (i : Instr) (s : State) (r : Word) : Prop :=
  ∃ t, exec i s = .next t ∧ t.sel = s.sel ∧ t.mg = s.mg ∧ t.gen = s.gen ∧ Answered s t r

/-- Format Z (30_encoding.md R44): of the words with opcode op exactly the one with operand 0 is command i, and every
other one is error 0x0002. -/
def IsFormatZ (op : BitVec 8) (i : Instr) : Prop :=
  ∀ w : Word, opField w = op →
    (opndField w = 0 → decode w = .ok i) ∧ (opndField w ≠ 0 → decode w = .error .nonzeroMbz)

/-- Format S8 (R44): of the words with opcode op those with bits [23:8] zero are the command with SELV = bits [7:0], and
every other one is error 0x0002. -/
def IsFormatS8 (op : BitVec 8) (i : BitVec 8 → Instr) : Prop :=
  ∀ w : Word, opField w = op →
    (mbzS8Field w = 0 → decode w = .ok (i (selvField w))) ∧
    (mbzS8Field w ≠ 0 → decode w = .error .nonzeroMbz)

/-- NG(s), the value column of 49_gain_and_output_normalizer.md R96. -/
def ngOf (s : BitVec 8) : Int := if s = 0x00 then 18022 else 32768

/-- The 8-bit sample of a raw sample: the exact product with both gains, truncated toward zero to sample units, clamped
into [-128, 127], plus 128 (R97, R98). -/
def outSample (raw g m : Int) : Int := max (-128) (min 127 (Int.tdiv (raw * g * m) (2 ^ 30))) + 128

/-- PRODUCE executed in s completes: the generators are g after it, SEL and MG are unchanged, and the one response is the
8-bit sample of the raw sample `raw` with the NG and MG that s holds. -/
def Produces (s : State) (g : Generators) (raw : Int) : Prop :=
  ∃ t r, exec .produce s = .next t ∧ t.sel = s.sel ∧ t.mg = s.mg ∧ t.gen = g ∧ Answered s t r ∧
    (r.toNat : Int) = outSample raw (ngOf s.sel) s.mg.toNat

/-- The signed reading of the 16 low bits of a drawn word (43_noise_lfsr_coloring.md R70). -/
def low16 (l : BitVec 32) : Int := (l.setWidth 16).toInt

/-- 32 LFSR steps (R70). -/
def drawn (l : BitVec 32) : BitVec 32 := lfsrStep^[32] l

/-- PINK's raw sample: the floored mean of the 16 octave registers, scaled by 127 / 32768 (R73, R94). -/
def pinkRaw (preg : Vector (BitVec 16) 16) : Int := (preg.toList.map BitVec.toInt).sum / 16 * 127 / 32768

/-- What 47_granular_spawner.md R88 says of the pool before and after the spawner. -/
def Spawned (q q' : Granular) : Prop :=
  let l0 := drawn q.lfsr
  let l1 := drawn l0
  let l2 := drawn l1
  let l3 := drawn l2
  let dur := 220 + (l2.setWidth 16).toNat * 883 / 65536
  let grain : Slot :=
    { act := true, ph := 0
      inc := BitVec.ofNat 32 (77913238 + (l1.setWidth 16).toNat * 701219151 / 65536)
      amp := BitVec.ofNat 16 (6554 + (l3.setWidth 16).toNat * 13108 / 65536)
      dec := BitVec.ofNat 16 (32768 - 163840 / dur)
      rem := BitVec.ofNat 16 dur }
  let test := (l0.setWidth 16).toNat < 128
  (∀ k, (hk : k < 8) → test → q.slot[k].act = false → (∀ j, (hj : j < k) → q.slot[j].act = true) →
    q'.lfsr = l3 ∧ q'.slot = q.slot.set k grain) ∧
  ((¬test ∨ ∀ j, (hj : j < 8) → q.slot[j].act = true) → q'.lfsr = l0 ∧ q'.slot = q.slot)

/-- What R89 says of one slot before and after a sample, and of its term of the mix. -/
def Stepped (S S' : Slot) (term : Int) : Prop :=
  (S.act = false → S' = S ∧ term = 0) ∧
  (S.act = true →
    let amp : BitVec 16 := BitVec.ofNat 16 (S.amp.toNat * S.dec.toNat / 32768)
    term = sinlut (S.ph + S.inc) * S.amp.toNat / 32768 ∧
    S' = { act := !(decide (S.rem - 1 = 0) || decide (amp.toNat < 16)), ph := S.ph + S.inc, inc := S.inc,
           amp := amp, dec := S.dec, rem := S.rem - 1 })

/-- A word as four bytes at the adapter of port p, bits [7:0] first (20_memory.md R33). -/
def bytesAt (p : PortId) (w : Word) : List Event :=
  [.byte p (w.extractLsb' 0 8), .byte p (w.extractLsb' 8 8), .byte p (w.extractLsb' 16 8),
   .byte p (w.extractLsb' 24 8)]

/-- The inputs hold no reset. -/
def NoReset (es : List Event) : Prop := ∀ a b, Event.reset a b ∉ es

/-- The next step of s runs the command i. -/
def Runs (s : State) (i : Instr) : Prop := ∃ w u, s.fetch = .run w u ∧ decode w = .ok i

/-- The next step of s is a PRODUCE with snapshot the selector x. -/
def selects (x : Selector) (s : State) : Bool :=
  match s.fetch with
  | .run w _ => (match decode w with | .ok .produce => true | _ => false) && Selector.ofCode s.sel == some x
  | .quiet _ => false

/-- How many of the next n steps are a PRODUCE that selects generator x. -/
def produced (x : Selector) : Nat → State → Nat
  | 0, _ => 0
  | n + 1, s =>
    match step s with
    | .next t => (if selects x s then 1 else 0) + produced x n t
    | .fault _ | .refused _ => 0

/-- The two generator states hold the same state of generator x. -/
def agreeOn (x : Selector) (g h : Generators) : Prop :=
  match x with
  | .white => g.white = h.white
  | .pink => g.pink = h.pink
  | .brown => g.brown = h.brown
  | .blue => g.blue = h.blue
  | .violet => g.violet = h.violet
  | .sine => g.sine = h.sine
  | .amTremolo => g.amTremolo = h.amTremolo
  | .ringMod => g.ringMod = h.ringMod
  | .feedbackHowl => g.feedbackHowl = h.feedbackHowl
  | .granular => g.granular = h.granular

/-- The raw sample range of each generator (48_algorithm_multiplexer.md R95). -/
def rawRange : Selector → Int × Int
  | .white | .pink | .blue | .sine | .amTremolo | .ringMod => (-127, 126)
  | .brown => (-127, 127)
  | .violet => (-170, 169)
  | .feedbackHowl => (-120, 120)
  | .granular => (-529, 527)

end Sys2Proof.Claims

open Sys2Proof Sys2Proof.Machine Sys2Proof.Claims

/-! ## Encoding -/

/-- Decode and encode agree, both ways, for every command with every operand: no bit of an encoding is dropped, every
command's word is well formed, and no second word is the same command (30_encoding.md R43-R47). -/
def Obligations.DecodeAndEncodeAgree : Prop :=
  (∀ i, decode (encode i) = .ok i ∧ wordWellFormed (encode i) = true) ∧
  ∀ w i, decode w = .ok i → encode i = w

/-- The decoder of 40_commands.md R51 and the match and mask table of 30_encoding.md R46 say the same: a word is a command
exactly when it matches a row, the row it matches is that command's, and no word matches two. -/
def Obligations.DecoderFollowsMatchAndMask : Prop :=
  ∀ w, (wordWellFormed w = true ↔ ∃ i, decode w = .ok i) ∧
    ∀ i, decode w = .ok i →
      i.row ∈ opcodeRows ∧ i.row.accepts w = true ∧ ∀ r ∈ opcodeRows, r.accepts w = true → r = i.row

/-- Every illegal word has exactly the cause R103 gives it, the opcode tested first (R104), and no other word has one. -/
def Obligations.IllegalWordsHaveOneCause : Prop :=
  ∀ w : Word,
    (decode w = .error .reservedOpcode ↔ 0x07 ≤ (opField w).toNat) ∧
    (decode w = .error .nonzeroMbz ↔
      (opField w ∈ [0x00#8, 0x01#8, 0x03#8, 0x05#8] ∧ opndField w ≠ 0) ∨
      (opField w ∈ [0x02#8, 0x06#8] ∧ mbzS8Field w ≠ 0)) ∧
    CmdError.reservedOpcode.code = 0x0001 ∧ CmdError.nonzeroMbz.code = 0x0002

/-- The worked encodings of 30_encoding.md section 6 decode as printed. -/
def Obligations.WorkedEncodingsDecode : Prop :=
  decode 0x00000000 = .ok .nop ∧ decode 0x01000000 = .ok .produce ∧ decode 0x02000001 = .ok (.setsel 0x01) ∧
  decode 0x020000FF = .ok (.setsel 0xFF) ∧ decode 0x03000000 = .ok .getsel ∧
  decode 0x04004000 = .ok (.setmg 0x004000) ∧ decode 0x04FFFFFF = .ok (.setmg 0xFFFFFF) ∧
  decode 0x04009C40 = .ok (.setmg 0x009C40) ∧ decode 0x05000000 = .ok .getmg ∧
  decode 0x06000000 = .ok (.getng 0x00) ∧ decode 0x07000000 = .error .reservedOpcode ∧
  decode 0x01000001 = .error .nonzeroMbz

/-- The assembler (R50) turns an S8 or G24 statement into one word, which decodes to the command with the number that was
written, and refuses a number out of range. -/
def Obligations.AssemblerKeepsOperands : Prop :=
  (∀ v : Int, 0 ≤ v → v ≤ 255 →
    (∃ w c, Asm.Stmt.assemble (.setsel v) = .ok [w] ∧ decode w = .ok (.setsel c) ∧ (c.toNat : Int) = v) ∧
    (∃ w c, Asm.Stmt.assemble (.getng v) = .ok [w] ∧ decode w = .ok (.getng c) ∧ (c.toNat : Int) = v)) ∧
  (∀ v : Int, -8388608 ≤ v → v ≤ 8388607 →
    ∃ w c, Asm.Stmt.assemble (.setmg v) = .ok [w] ∧ decode w = .ok (.setmg c) ∧ c.toInt = v) ∧
  (∀ v : Int, (v < 0 ∨ 255 < v) →
    Asm.Stmt.assemble (.setsel v) = .error .outOfRange ∧ Asm.Stmt.assemble (.getng v) = .error .outOfRange) ∧
  (∀ v : Int, (v < -8388608 ∨ 8388607 < v) → Asm.Stmt.assemble (.setmg v) = .error .outOfRange)

/-- The pseudo-commands expand as the table of R50 says. -/
def Obligations.PseudoCommandsExpand : Prop :=
  Asm.Stmt.assemble .mute = .ok [0x04000000] ∧ Asm.Stmt.assemble .unity = .ok [0x04008000] ∧
  (∀ x : Selector, ∃ w, Asm.Stmt.assemble (.select x) = .ok [w] ∧ decode w = .ok (.setsel x.code)) ∧
  (∀ n, 1 ≤ n → Asm.Stmt.assemble (.produce n) = .ok (List.replicate n 0x01000000)) ∧
  Asm.Stmt.assemble (.produce 0) = .error .outOfRange ∧
  ∀ v : Nat, v < 2 ^ 32 → ∃ w : Word, Asm.Stmt.assemble (.word v) = .ok [w] ∧ w.toNat = v

/-! ## The step -/

/-- When the word accepted next decodes to i, the step is exec of i, in the state where that input has been taken and the
response is to return at the port the word came from: for a word at either port, and for the port S word of two accepted
in the same cycle, after which the port C word is the next input (20_memory.md R35, R39; 70_reset_and_hazards.md
R115). The list of inputs is the model's form of the two ports (log 1). -/
def Obligations.StepRunsTheDecodedCommand : Prop :=
  ∀ (s : State) (w wc : Word) (p : PortId) (rest : List Event) (i : Instr), decode w = .ok i →
    step { s with input := .command p w :: rest } = exec i { s with input := rest, cur := p } ∧
    step { s with input := .sameCycle w wc :: rest } =
      exec i { s with input := .command .portC wc :: rest, cur := .portS }

/-- Two words accepted in the same clock cycle execute as the port S word and then the port C word (20_memory.md R39). -/
def Obligations.SameCycleRunsPortSFirst : Prop :=
  ∀ (s : State) (ws wc : Word) (rest : List Event),
    core.run 2 { s with input := .sameCycle ws wc :: rest } =
    core.run 2 { s with input := .command .portS ws :: .command .portC wc :: rest }

/-- A command word carried as four bytes, bits [7:0] first and the opcode byte last, does nothing until the fourth byte and
is then the same command (20_memory.md R33, R34), whatever stood in the inputs after it. -/
def Obligations.FourBytesAreOneCommand : Prop :=
  ∀ (s : State) (p : PortId) (w : Word) (rest : List Event), (s.port p).rx = [] →
    core.run 4 { s with input := bytesAt p w ++ rest } =
      step { s with input := .command p w :: rest } ∧
    ∀ t, core.run 3 { s with input := bytesAt p w ++ rest } = .next t →
      t.sel = s.sel ∧ t.mg = s.mg ∧ t.gen = s.gen ∧ ∀ q, (t.port q).responses = (s.port q).responses

/-- The model's loading of one word (log 9): the very next step runs the command the decoder reads from it, answered at
port S. -/
def Obligations.LoadedWordRunsNext : Prop :=
  ∀ (s : State) (nbits w : Nat) (i : Instr), decodeTableWord nbits w = some i →
    step (s.withFetchWord nbits w) = exec i { s with cur := .portS }

/-- An illegal word is answered with 0x80000000 OR its code at its own port, and no state changes: not SEL, not MG, no
generator (60_exceptions.md R102). The next input is then taken as usual. -/
def Obligations.ErrorWordsAreAnsweredAndChangeNothing : Prop :=
  ∀ (s : State) (p : PortId) (w : Word) (rest : List Event) (e : CmdError), decode w = .error e →
    ∃ t, step { s with input := .command p w :: rest } = .next t ∧
      t.sel = s.sel ∧ t.mg = s.mg ∧ t.gen = s.gen ∧ t.input = rest ∧
      (t.port p).responses = (s.port p).responses ++
        [match e with | .reservedOpcode => (0x80000001 : Word) | .nonzeroMbz => 0x80000002] ∧
      (∀ q, (t.port q).rx = (s.port q).rx) ∧
      ∀ q, q ≠ p → (t.port q).responses = (s.port q).responses

/-- Idle ports change nothing (70_reset_and_hazards.md R115; 60_exceptions.md R112). That the wait is shown as a step, which
answers a next state, is the model's choice (log 11), as is the list of inputs that is empty then (log 1). -/
def Obligations.IdlePortsChangeNothing : Prop :=
  ∀ s : State, s.input = [] → step s = .next s

/-- Reset, asserted while the ports may hold commands accepted and not yet answered, puts every register and every
generator field at the value of R113's table, and gives no response for those commands. (That the responses returned
before it stay on record, and that a byte adapter's half word is dropped, are the model's: logs 3 and 4.) -/
def Obligations.ResetSetsEveryState : Prop :=
  ∀ (s : State) (inS inC : Option Word) (rest : List Event),
    ∃ t, step { s with input := .reset inS inC :: rest } = .next t ∧
      t.sel = 0x00 ∧ t.mg = 32768 ∧ t.input = rest ∧
      (∀ p, (t.port p).responses = (s.port p).responses ∧ (t.port p).rx = []) ∧
      t.gen =
        { white := ⟨0x12345678⟩, pink := ⟨0x9E3779B9, 0, Vector.replicate 16 0⟩, brown := ⟨0x2545F491, 0⟩,
          blue := ⟨0x6C8E9CF5, 0, 0⟩, violet := ⟨0x3C6EF372, 0, 0⟩, sine := ⟨0xA54FF53A, 0⟩, amTremolo := ⟨0, 0⟩,
          ringMod := ⟨0, 0⟩, feedbackHowl := ⟨0x510E527F, 0, 0, 0, 0, 0⟩,
          granular := ⟨0x1F83D9AB, Vector.replicate 8 ⟨false, 0, 0, 0, 0, 0⟩⟩ }

/-- The rules are total: no state lacks a next state, so no step is a fault or a refusal (60_exceptions.md R105). -/
def Obligations.EveryStateHasANextState : Prop :=
  ∀ s : State, s.StepsOn

/-- Every command word, legal or not, gets exactly one response, at its own port, and takes exactly itself from the inputs;
the response has bits [30:16] zero, and ERR = 1 exactly when the word is illegal (30_encoding.md R48;
70_reset_and_hazards.md R115). -/
def Obligations.EveryWordIsAnsweredOnce : Prop :=
  ∀ (s : State) (p : PortId) (w : Word) (rest : List Event),
    ∃ t r, step { s with input := .command p w :: rest } = .next t ∧ t.input = rest ∧
      (t.port p).responses = (s.port p).responses ++ [r] ∧
      (∀ q, q ≠ p → (t.port q).responses = (s.port q).responses) ∧
      respZero r = 0 ∧ (respErr r = true ↔ ¬ wordWellFormed w = true)

/-- A command has the same effect at either port (60_exceptions.md R107). -/
def Obligations.PortsAreEqual : Prop :=
  ∀ (s t u : State) (w : Word) (rest : List Event),
    step { s with input := .command .portS w :: rest } = .next t →
    step { s with input := .command .portC w :: rest } = .next u →
      t.sel = u.sel ∧ t.mg = u.mg ∧ t.gen = u.gen ∧ t.input = u.input ∧
      ∃ r, t.portS.responses = s.portS.responses ++ [r] ∧ t.portC.responses = s.portC.responses ∧
        u.portC.responses = s.portC.responses ++ [r] ∧ u.portS.responses = s.portS.responses

/-- Who may change what, over all steps: SEL only a SETSEL or reset (10_state.md R12), MG only a SETMG or reset (R13), a
generator only a PRODUCE or reset (R16). -/
def Obligations.OnlyTheirCommandsChangeRegisters : Prop :=
  ∀ s t : State, step s = .next t →
    (t.sel ≠ s.sel → (∃ v, Runs s (.setsel v) ∧ t.sel = v) ∨ ∃ a b rest, s.input = .reset a b :: rest) ∧
    (t.mg ≠ s.mg → (∃ v, Runs s (.setmg v)) ∨ ∃ a b rest, s.input = .reset a b :: rest) ∧
    (t.gen ≠ s.gen → Runs s .produce ∨ ∃ a b rest, s.input = .reset a b :: rest)

/-! ## Invariants -/

/-- Every stored value is legal after reset (10_state.md section 6). -/
def Obligations.ResetStateIsLegal : Prop := State.reset.Legal

/-- Every step keeps every stored value legal: MG in [0, 32768], no LFSR 0, the integrator, the delay lines and the grain
slots in their ranges, a byte adapter short of a word (10_state.md section 6, R26; that a byte adapter is part of the
model is log 4). -/
def Obligations.EveryStepKeepsTheStateLegal : Prop :=
  ∀ s t : State, s.Legal → step s = .next t → t.Legal

/-- "Every `lfsr` field is nonzero at reset and stays nonzero" (R27). -/
def Obligations.LfsrsNeverReachZero : Prop :=
  State.reset.gen.LfsrsNonzero ∧
  ∀ s t : State, s.gen.LfsrsNonzero → step s = .next t → t.gen.LfsrsNonzero

/-! ## The commands -/

/-- NOP (40_commands.md R52). -/
def Obligations.NopOnlyAnswersZero : Prop :=
  IsFormatZ 0x00 .nop ∧ ∀ s, OnlyAnswers .nop s 0x00000000

/-- SETSEL (R55): every code is accepted; SEL becomes it, nothing else changes, the response is 0. -/
def Obligations.SetselWritesOnlySel : Prop :=
  IsFormatS8 0x02 .setsel ∧
  ∀ (v : BitVec 8) (s : State), ∃ t, exec (.setsel v) s = .next t ∧
    t.sel = v ∧ t.mg = s.mg ∧ t.gen = s.gen ∧ Answered s t 0x00000000

/-- GETSEL (R56). -/
def Obligations.GetselAnswersSel : Prop :=
  IsFormatZ 0x03 .getsel ∧ ∀ s, ∃ r : Word, r.toNat = s.sel.toNat ∧ OnlyAnswers .getsel s r

/-- SETMG (R57, with the operand of R45 and the clamp of R99): MG becomes the signed operand clamped into [0, 32768],
nothing else changes, the response is 0, and no word with this opcode is illegal. -/
def Obligations.SetmgWritesTheClampedOperand : Prop :=
  (∀ w : Word, opField w = 0x04 → decode w = .ok (.setmg (opndField w))) ∧
  ∀ (v : BitVec 24) (s : State), ∃ t, exec (.setmg v) s = .next t ∧
    (t.mg.toNat : Int) = max 0 (min 32768 v.toInt) ∧ t.sel = s.sel ∧ t.gen = s.gen ∧ Answered s t 0x00000000

/-- GETMG (R58). -/
def Obligations.GetmgAnswersMg : Prop :=
  IsFormatZ 0x05 .getmg ∧ ∀ s, ∃ r : Word, r.toNat = s.mg.toNat ∧ OnlyAnswers .getmg s r

/-- GETNG (R59): the gain of the operand's selector, WHITE 18022, every other code 32768, whatever SEL is. -/
def Obligations.GetngAnswersTheGain : Prop :=
  IsFormatS8 0x06 .getng ∧
  ∀ (v : BitVec 8) (s : State), ∃ r : Word, (r.toNat : Int) = ngOf v ∧ OnlyAnswers (.getng v) s r

/-- SETSEL and SETMG are idempotent, the read commands and NOP repeat their answer, and PRODUCE is not idempotent
(20_memory.md R36). -/
def Obligations.RepeatedCommands : Prop :=
  (∀ (i : Instr) (s t u : State), i ≠ .produce → exec i s = .next t → exec i t = .next u →
    u.sel = t.sel ∧ u.mg = t.mg ∧ u.gen = t.gen ∧
    ∃ r, (t.port s.cur).responses = (s.port s.cur).responses ++ [r] ∧
      (u.port s.cur).responses = (s.port s.cur).responses ++ [r, r]) ∧
  ∃ s t u a b, exec .produce s = .next t ∧ exec .produce t = .next u ∧ a ≠ b ∧ u.gen ≠ t.gen ∧
    u.portS.responses = s.portS.responses ++ [a, b]

/-- A write is seen by the PRODUCE after it: SETSEL v and then PRODUCE advances the generator of v with the old MG, and
SETMG and then PRODUCE takes the new MG with the old SEL (20_memory.md R40; 40_commands.md R54). -/
def Obligations.ProduceSeesEarlierWrites : Prop :=
  ∀ (s t u : State) (v : BitVec 8) (gain : BitVec 24),
    (exec (.setsel v) s = .next t → exec .produce t = .next u →
      u.gen = (generate Config.table v s.gen).1 ∧
      ∃ r, (u.port s.cur).responses = (s.port s.cur).responses ++ [0, r] ∧
        (r.toNat : Int) = outSample (generate Config.table v s.gen).2 (ngOf v) s.mg.toNat) ∧
    (exec (.setmg gain) s = .next t → exec .produce t = .next u →
      u.gen = (generate Config.table s.sel s.gen).1 ∧
      ∃ r, (u.port s.cur).responses = (s.port s.cur).responses ++ [0, r] ∧
        (r.toNat : Int) = outSample (generate Config.table s.sel s.gen).2 (ngOf s.sel) (max 0 (min 32768 gain.toInt)))

/-! ## PRODUCE: the multiplexer and the gain stage -/

/-- PRODUCE (40_commands.md R53) completes in every state: it never errs, only generator state changes, and the sample it
answers is in [0, 255] and is the raw sample of the selected generator through the gain stage. -/
def Obligations.ProduceAlwaysAnswersASample : Prop :=
  IsFormatZ 0x01 .produce ∧
  ∀ s : State,
    Produces s (generate Config.table s.sel s.gen).1 (generate Config.table s.sel s.gen).2 ∧
    ∀ t r, exec .produce s = .next t → Answered s t r → r.toNat ≤ 255

/-- An unsupported selector gives 128 and changes no state (48_algorithm_multiplexer.md R93). -/
def Obligations.UnsupportedSelectorIsSilent : Prop :=
  ∀ s : State, 0x0A ≤ s.sel.toNat → OnlyAnswers .produce s 0x00000080

/-- "When MG = 0, every PRODUCE returns 128 for every selector and every generator state", and the selected generator still
advances, as it would at any other gain (49_gain_and_output_normalizer.md R100). -/
def Obligations.ZeroMasterGainMutes : Prop :=
  ∀ s : State, s.mg = 0 →
    ∃ t, exec .produce s = .next t ∧ Answered s t 0x00000080 ∧ t.sel = s.sel ∧ t.mg = 0 ∧
      ∀ (m : BitVec 16) (u : State), exec .produce { s with mg := m } = .next u → u.gen = t.gen

/-- The normalizer (R98): the output is in [0, 255]; it is symmetric about 128 wherever the clamp does not cut; and a
product below one sample unit in magnitude gives exactly 128. -/
def Obligations.NormalizerIsSymmetric : Prop :=
  ∀ raw g m : Int,
    0 ≤ normalizeSample raw g m ∧ normalizeSample raw g m ≤ 255 ∧
    (|Int.tdiv (raw * g * m) (2 ^ 30)| ≤ 127 → normalizeSample raw g m - 128 = -(normalizeSample (-raw) g m - 128)) ∧
    (|raw * g * m| < 2 ^ 30 → normalizeSample raw g m = 128)

/-- Halving the gain halves the deviation to within one unit (R101), also as a property of two machines whose gain tables
differ by that factor, as long as neither value is clamped. -/
def Obligations.GainIsLinear : Prop :=
  (∀ raw g m : Int, g % 2 = 0 →
    Int.tdiv (raw * g * m) (2 ^ 30) - 2 * Int.tdiv (raw * (g / 2) * m) (2 ^ 30) ∈ ({-1, 0, 1} : Set Int)) ∧
  ∀ (c : Config) (table' : List (Selector × BitVec 16)) (s : State),
    let c' : Config := { c with gainTable := table' }
    let d := Int.tdiv ((generate c s.sel s.gen).2 * (romNg c s.sel).toNat * s.mg.toNat) (2 ^ 30)
    (romNg c s.sel).toNat = 2 * (romNg c' s.sel).toNat → -128 ≤ d → d ≤ 127 →
      (sampleOf c s - 128) - 2 * (sampleOf c' s - 128) ∈ ({-1, 0, 1} : Set Int)

/-- For every configuration and every state the sample is in [0, 255] (40_commands.md R53, the source's S1). -/
def Obligations.SampleIsEightBitsInEveryConfiguration : Prop :=
  ∀ (c : Config) (s : State), ∃ r : Word, r.toNat ≤ 255 ∧
    (produceWith c s).port s.cur = (s.port s.cur).answer r

/-- The raw sample of every generator lies in its range of R95's table, from every legal state (log 5: legality is what
R95 calls reachable). -/
def Obligations.RawSamplesAreBounded : Prop :=
  ∀ (g : Generators) (x : Selector), g.Legal →
    (rawRange x).1 ≤ (generate Config.table x.code g).2 ∧ (generate Config.table x.code g).2 ≤ (rawRange x).2

/-- A PRODUCE reads no other generator's state (R92): if two states agree on SEL, MG and the selected generator, their
samples agree and the selected generator's state after agrees, whatever the other nine hold. -/
def Obligations.ProduceReadsOnlyItsGenerator : Prop :=
  ∀ (s u : State) (x : Selector), s.sel = x.code → u.sel = x.code → s.mg = u.mg → agreeOn x s.gen u.gen →
    ∃ s' u' r, exec .produce s = .next s' ∧ exec .produce u = .next u' ∧ agreeOn x s'.gen u'.gen ∧
      Answered s s' r ∧ Answered u u' r

/-- Deselection freezes a generator (R92, 90_conflicts.md C1): after any run without a reset, of any commands at either
port, each generator's state is its own step iterated exactly once for each PRODUCE that selected it. -/
def Obligations.GeneratorsAdvanceOnlyWhenSelected : Prop :=
  ∀ (n : Nat) (s t : State), NoReset s.input → core.run n s = .next t →
    t.gen.white = (fun x => (genWhite x).1)^[produced .white n s] s.gen.white ∧
    t.gen.pink = (fun x => (genPink x).1)^[produced .pink n s] s.gen.pink ∧
    t.gen.brown = (fun x => (genBrown x).1)^[produced .brown n s] s.gen.brown ∧
    t.gen.blue = (fun x => (genBlue x).1)^[produced .blue n s] s.gen.blue ∧
    t.gen.violet = (fun x => (genViolet x).1)^[produced .violet n s] s.gen.violet ∧
    t.gen.sine = (fun x => (genSine Config.table x).1)^[produced .sine n s] s.gen.sine ∧
    t.gen.amTremolo = (fun x => (genAm Config.table x).1)^[produced .amTremolo n s] s.gen.amTremolo ∧
    t.gen.ringMod = (fun x => (genRing Config.table x).1)^[produced .ringMod n s] s.gen.ringMod ∧
    t.gen.feedbackHowl = (fun x => (genHowl Config.table x).1)^[produced .feedbackHowl n s] s.gen.feedbackHowl ∧
    t.gen.granular = (fun x => (genGran Config.table x).1)^[produced .granular n s] s.gen.granular

/-! ## The ten generators, each as PRODUCE runs it -/

/-- WHITE (43_noise_lfsr_coloring.md R72). -/
def Obligations.ProduceWhite : Prop :=
  ∀ s : State, s.sel = 0x00 →
    let l := drawn s.gen.white.lfsr
    Produces s { s.gen with white := ⟨l⟩ } (low16 l * 127 / 32768)

/-- PINK (R73): register 0 takes the first draw; when the new count is 2^i modulo 2^(i+1) for an i up to 14, register i + 1
takes a second draw; otherwise (the count is a multiple of 2^15) there is no second draw. -/
def Obligations.ProducePink : Prop :=
  ∀ s : State, s.sel = 0x01 →
    let x := s.gen.pink
    let cnt := x.cnt + 1
    let l1 := drawn x.lfsr
    let l2 := drawn l1
    let preg := x.preg.set 0 (l1.setWidth 16)
    (∀ i, (hi : i ≤ 14) → cnt.toNat % 2 ^ (i + 1) = 2 ^ i →
      let preg' := preg.set (i + 1) (l2.setWidth 16)
      Produces s { s.gen with pink := ⟨l2, cnt, preg'⟩ } (pinkRaw preg')) ∧
    (cnt.toNat % 2 ^ 15 = 0 → Produces s { s.gen with pink := ⟨l1, cnt, preg⟩ } (pinkRaw preg))

/-- BROWN (R74): decay, then the step, then the clamp. -/
def Obligations.ProduceBrown : Prop :=
  ∀ s : State, s.sel = 0x02 →
    let l := drawn s.gen.brown.lfsr
    let acc' := max (-32768) (min 32768 (s.gen.brown.acc.toInt * 32702 / 32768 + low16 l / 32))
    ∃ b : BitVec 18, b.toInt = acc' ∧ Produces s { s.gen with brown := ⟨l, b⟩ } (acc' * 127 / 32768)

/-- BLUE (44_fir_filter.md R78 with R77): the halved first difference. -/
def Obligations.ProduceBlue : Prop :=
  ∀ s : State, s.sel = 0x03 →
    let l := drawn s.gen.blue.lfsr
    let y := (low16 l - s.gen.blue.x1.toInt) / 2
    Produces s { s.gen with blue := ⟨l, l.setWidth 16, s.gen.blue.x1⟩ } (y * 127 / 32768)

/-- VIOLET (R79 with R77): the second difference times 10923 / 32768. -/
def Obligations.ProduceViolet : Prop :=
  ∀ s : State, s.sel = 0x04 →
    let l := drawn s.gen.violet.lfsr
    let y := 10923 * (low16 l - 2 * s.gen.violet.x1.toInt + s.gen.violet.x2.toInt) / 32768
    Produces s { s.gen with violet := ⟨l, l.setWidth 16, s.gen.violet.x1⟩ } (y * 127 / 32768)

/-- SINE (42_sine_lookup_table.md R68): the increment of 440 Hz plus the signed 18 low bits of the draw. -/
def Obligations.ProduceSine : Prop :=
  ∀ s : State, s.sel = 0x05 →
    let l := drawn s.gen.sine.lfsr
    let ph := s.gen.sine.ph + 171409125 + (l.setWidth 18).signExtend 32
    Produces s { s.gen with sine := ⟨l, ph⟩ } (sinlut ph * 127 / 32768)

/-- AM_TREMOLO (45_amplitude_modulator.md R82 with R80, R81). -/
def Obligations.ProduceAmTremolo : Prop :=
  ∀ s : State, s.sel = 0x06 →
    let cph := s.gen.amTremolo.cph + 171409125
    let lph := s.gen.amTremolo.lph + 1947830
    let env := 6554 + 26214 * ((sinlut lph + 32768) / 2) / 32768
    Produces s { s.gen with amTremolo := ⟨cph, lph⟩ } (sinlut cph * env / 32768 * 127 / 32768)

/-- RING_MOD (R83 with R80). -/
def Obligations.ProduceRingMod : Prop :=
  ∀ s : State, s.sel = 0x07 →
    let pha := s.gen.ringMod.pha + 171409125
    let phb := s.gen.ringMod.phb + 116869858
    Produces s { s.gen with ringMod := ⟨pha, phb⟩ } (sinlut pha * sinlut phb / 32768 * 127 / 32768)

/-- FEEDBACK_HOWL (46_iir_biquad.md R87 with R84, R85): the drive, the swept coefficients, the clamped resonator, the
clipper. -/
def Obligations.ProduceFeedbackHowl : Prop :=
  ∀ s : State, s.sel = 0x08 →
    let x := s.gen.feedbackHowl
    let l := drawn x.lfsr
    let x0 := low16 l * 655 / 32768
    let lph := x.lph + 38958
    let incc := 116869858 + 467479433 * ((sinlut lph + 32768) / 2) / 32768
    let r := 1073741824 - incc * 8235 / 262144
    let a1 := -(r * sinlut (BitVec.ofInt 32 (incc + 1073741824)) / 16384)
    let a2 := r * r / 1073741824
    let y0 := max (-131072) (min 131072
      ((1073741824 * x0 - a1 * x.y1.toInt - a2 * x.y2.toInt) / 1073741824))
    ∃ bx by0 : BitVec 32, bx.toInt = x0 ∧ by0.toInt = y0 ∧
      Produces s { s.gen with feedbackHowl := ⟨l, lph, bx, x.x1, by0, x.y1⟩ } (softclip (y0 * 4) * 120 / 32768)

/-- GRANULAR (47_granular_spawner.md R90 with R88, R89): spawn, then every slot steps, then the mix. -/
def Obligations.ProduceGranular : Prop :=
  ∀ s : State, s.sel = 0x09 →
    ∃ (q q' : Granular) (term : Vector Int 8),
      Spawned s.gen.granular q ∧ q'.lfsr = q.lfsr ∧
      (∀ k, (hk : k < 8) → Stepped q.slot[k] q'.slot[k] term[k]) ∧
      Produces s { s.gen with granular := q' } (term.toList.sum * 110 / 32768)

/-! ## The sub-blocks -/

/-- The LFSR step (43_noise_lfsr_coloring.md R69): a right shift, with the toggle mask when bit 0 was 1; it is a bijection
that fixes 0, so a nonzero value never becomes 0. -/
def Obligations.LfsrStepIsABijection : Prop :=
  (∀ l : BitVec 32, lfsrStep l = (l >>> 1) ^^^ (if l.getLsbD 0 then 0x80200003#32 else 0#32)) ∧
  Function.Bijective lfsrStep ∧ lfsrStep 0 = 0 ∧
  ∀ (n : Nat) (l : BitVec 32), l ≠ 0 → lfsrStep^[n] l ≠ 0

/-- hz_to_inc (41_phase_accumulator.md R61) for every positive sample rate: the floor of f × 2^32 / FS modulo 2^32, f in
Hz being fRaw / 65536; 0 Hz gives 0; f + FS gives the increment of f. And what it gives at FS = 11025 for each frequency
parameter, the increments of 00_scope.md R6. -/
def Obligations.FrequencyToIncrement : Prop :=
  (∀ (c : Config) (fRaw : Nat), 0 < c.fs →
    (hzToInc c fRaw).toNat = fRaw * 65536 / c.fs % 2 ^ 32 ∧ hzToInc c 0 = 0 ∧
    hzToInc c (fRaw + 65536 * c.fs) = hzToInc c fRaw) ∧
  INC_SINE Config.table = 171409125 ∧ INC_AM_C Config.table = 171409125 ∧ INC_RING_A Config.table = 171409125 ∧
  INC_AM_L Config.table = 1947830 ∧ INC_RING_B Config.table = 116869858 ∧ INC_HOWL_LO Config.table = 116869858 ∧
  INC_HOWL_HI Config.table = 584349291 ∧ INC_HOWL_SWEEP Config.table = 38958 ∧
  INC_GRAN_MIN Config.table = 77913238 ∧ INC_GRAN_MAX Config.table = 779132389

/-- Phase advance (R62): modulo 2^32, and a crossing subtracts exactly one period. -/
def Obligations.PhaseWrapsByOnePeriod : Prop :=
  ∀ ph inc : BitVec 32,
    (ph.toNat + inc.toNat < 2 ^ 32 → (advance ph inc).toNat = ph.toNat + inc.toNat) ∧
    (2 ^ 32 ≤ ph.toNat + inc.toNat → (advance ph inc).toNat + 2 ^ 32 = ph.toNat + inc.toNat)

/-- The sine lookup (42_sine_lookup_table.md R66): each quadrant reads the quarter table forwards or backwards, bits [21:0]
are ignored, the result is in [-32767, 32767], and it is odd about half a turn. -/
def Obligations.SineLookup : Prop :=
  (∀ (ph : BitVec 32) (k : Nat), (ph.toNat / 2 ^ 22) % 256 = k →
    (ph.toNat / 2 ^ 30 = 0 → sinlut ph = (ROM_SINE.getD k 0 : Nat)) ∧
    (ph.toNat / 2 ^ 30 = 1 → sinlut ph = (ROM_SINE.getD (256 - k) 0 : Nat)) ∧
    (ph.toNat / 2 ^ 30 = 2 → sinlut ph = -(ROM_SINE.getD k 0 : Nat)) ∧
    (ph.toNat / 2 ^ 30 = 3 → sinlut ph = -(ROM_SINE.getD (256 - k) 0 : Nat))) ∧
  (∀ ph ph' : BitVec 32, ph.toNat / 2 ^ 22 = ph'.toNat / 2 ^ 22 → sinlut ph = sinlut ph') ∧
  ∀ ph : BitVec 32, -32767 ≤ sinlut ph ∧ sinlut ph ≤ 32767 ∧ sinlut (ph + 0x80000000) = -sinlut ph

/-- Checks on the sine table: its length and its sum, which 42_sine_lookup_table.md R65 gives; its last entry; and that it
never decreases. They do not fix every entry: SineLookup reads the table as it stands. -/
def Obligations.SineTablePassesItsChecks : Prop :=
  ROM_SINE.length = 257 ∧ ROM_SINE.sum = 5356550 ∧ ROM_SINE.getD 256 0 = 32767 ∧ ROM_SINE.Pairwise (· ≤ ·)

/-- The envelope never reaches full silence and never exceeds one (45_amplitude_modulator.md R81), for every floor below 1.0
and every LFO phase. -/
def Obligations.EnvelopeStaysAboveItsFloor : Prop :=
  ∀ (c : Config) (lph : BitVec 32), 0 ≤ c.amDmin → c.amDmin < 32768 →
    c.amDmin ≤ amenv c (sinlut lph) ∧ amenv c (sinlut lph) ≤ 32767

/-- The filter with the coefficients of any centre in the sweep range, frozen, is stable (46_iir_biquad.md R85): the pole
radius is below 1 and |a1| < 2^30 + a2; the ranges of omr and r are the rule's. -/
def Obligations.ResonatorIsStable : Prop :=
  ∀ incc : Int, 116869858 ≤ incc → incc ≤ 584335024 →
    3671353 ≤ howlOmr incc ∧ howlOmr incc ≤ 18356319 ∧ 1055385505 ≤ howlR incc ∧ howlR incc ≤ 1070070471 ∧
    0 < (howlcoef incc).a2 ∧ (howlcoef incc).a2 < 2 ^ 30 ∧ |(howlcoef incc).a1| < 2 ^ 30 + (howlcoef incc).a2

/-- The soft clipper (R86): its three pieces; and it is in [-32768, 32768], odd, and non-decreasing, for every input. -/
def Obligations.SoftclipIsOddAndMonotone : Prop :=
  (∀ x : Int, (98304 ≤ x → softclip x = 32768) ∧ (x ≤ -98304 → softclip x = -32768) ∧
    (-98304 < x → x < 98304 →
      softclip x = Int.tdiv (x * (27 * 2 ^ 30 + x * x)) (27 * 2 ^ 30 + 9 * x * x))) ∧
  (∀ x : Int, -32768 ≤ softclip x ∧ softclip x ≤ 32768 ∧ softclip (-x) = -softclip x) ∧
  ∀ x y : Int, x ≤ y → softclip x ≤ softclip y

/-- No grain outlives its duration (47_granular_spawner.md R89): an active slot with a lifetime left is inactive after at
most that many samples. -/
def Obligations.GrainsEndWithinTheirLifetime : Prop :=
  ∀ S : Slot, S.act = true → 1 ≤ S.rem.toNat →
    ∃ k, k ≤ S.rem.toNat ∧ ((fun T => (stepSlot T).1)^[k] S).act = false

/-! ## The observation of a run -/

/-- Inputs are taken in order and all of them are taken (20_memory.md R39, 70_reset_and_hazards.md R117): the block comes to
idle ports after any inputs, and presenting es and then fs is presenting fs to the state that es leave. The list of
inputs is the model's form of the ports (log 1). -/
def Obligations.InputsAreTakenInOrder : Prop :=
  ∀ (s : State) (es fs : List Event), ∃ t, s.present es = .next t ∧ t.input = [] ∧ s.present (es ++ fs) = t.present fs

/-- An infinite run has an observation (70_reset_and_hazards.md R117, R115): the responses observed at a port only ever grow,
and where a port is presented a command word again and again, whatever else is presented between, its response k is there
for every k and is one word; so no run halts. That an infinite run is observed through its finite beginnings is the model's
form (log 15). -/
def Obligations.InfiniteRunsAreObserved : Prop :=
  ∀ (s : State) (p : PortId) (es : Nat → Event),
    (∀ n m, n ≤ m → s.observation p es n <+: s.observation p es m) ∧
    ((∀ n, ∃ m, n ≤ m ∧ (es m).hasWordAt p = true) → ∀ k, ∃! r, s.Observes p es k r)
end

