-- ==== Sys2Proof/Laws/Arith.lean ====
section
/-!
SUPPORT. One spec lemma per pseudocode primitive of 00_scope.md R8: the bounds of a floor shift and of a clamp, and that
a value within a register's width is stored unchanged.
-/

namespace Sys2Proof.Machine

theorem asr_bounds {a lo hi : Int} (n : Nat) (h1 : lo * 2 ^ n ≤ a) (h2 : a < (hi + 1) * 2 ^ n) :
    lo ≤ asr a n ∧ asr a n ≤ hi := by
  have h : (0 : Int) < 2 ^ n := by positivity
  exact ⟨Int.le_ediv_of_mul_le h h1, Int.lt_add_one_iff.mp (Int.ediv_lt_of_lt_mul h h2)⟩

theorem clamp_bounds {lo hi : Int} (v : Int) (h : lo ≤ hi) : lo ≤ clamp v lo hi ∧ clamp v lo hi ≤ hi := by
  unfold clamp; split <;> [skip; split] <;> omega

theorem clamp_of_mem {v lo hi : Int} (h1 : lo ≤ v) (h2 : v ≤ hi) : clamp v lo hi = v := by
  unfold clamp; split <;> [skip; split] <;> omega

theorem clamp_eq_max_min {lo hi : Int} (v : Int) (h : lo ≤ hi) : clamp v lo hi = max lo (min hi v) := by
  unfold clamp; split <;> [skip; split] <;> omega

theorem sext_bounds (n : Nat) (v : Int) : -2 ^ (n - 1) ≤ sext n v ∧ sext n v < 2 ^ (n - 1) :=
  ⟨BitVec.le_toInt _, BitVec.toInt_lt⟩

/-- A signed value within n bits is stored unchanged. -/
theorem toInt_ofInt_of_bounds {n : Nat} {v : Int} (hn : 0 < n) (h1 : -2 ^ (n - 1) ≤ v) (h2 : v < 2 ^ (n - 1)) :
    (BitVec.ofInt n v).toInt = v := by
  rw [BitVec.toInt_ofInt]
  obtain ⟨k, rfl⟩ : ∃ k, n = k + 1 := ⟨n - 1, by omega⟩
  simp only [Nat.add_sub_cancel] at h1 h2
  apply Int.bmod_eq_of_le <;> push_cast [pow_succ] <;> omega

/-- An unsigned value within n bits is stored unchanged. -/
theorem uint_ofInt_of_bounds {n : Nat} {v : Int} (h1 : 0 ≤ v) (h2 : v < 2 ^ n) : uint (BitVec.ofInt n v) = v := by
  obtain ⟨k, rfl⟩ := Int.eq_ofNat_of_zero_le h1
  have hk : k < 2 ^ n := by exact_mod_cast h2
  simp [uint, Nat.mod_eq_of_lt hk]

theorem uint_bounds {n : Nat} (v : BitVec n) : 0 ≤ uint v ∧ uint v < 2 ^ n :=
  ⟨Int.natCast_nonneg _, by unfold uint; exact_mod_cast v.isLt⟩

theorem ctz_le (n v : Nat) : ctz n v ≤ n := by
  induction n generalizing v with
  | zero => simp [ctz]
  | succ n ih => unfold ctz; have := ih (v / 2); split <;> omega

/-- `ctz n v` is k below n exactly when bit k is the lowest 1 of v. -/
theorem ctz_eq_iff (n v k : Nat) (hk : k < n) : ctz n v = k ↔ v % 2 ^ (k + 1) = 2 ^ k := by
  induction n generalizing v k with
  | zero => omega
  | succ n ih =>
    unfold ctz
    split
    · rename_i h
      cases k with
      | zero => simpa using h
      | succ k =>
        simp only [Nat.zero_ne_add_one, false_iff]
        intro h2
        have : v % 2 ^ (k + 1 + 1) % 2 = 2 ^ (k + 1) % 2 := by rw [h2]
        rw [Nat.mod_mod_of_dvd _ (dvd_pow_self 2 (by omega)), pow_succ] at this
        omega
    · rename_i h
      cases k with
      | zero => simp only [Nat.add_one_ne_zero, false_iff]; intro h2; norm_num at h2; exact h h2
      | succ k =>
        rw [Nat.add_right_cancel_iff, ih _ _ (by omega)]
        have e : v % 2 ^ (k + 1 + 1) = 2 * (v / 2 % 2 ^ (k + 1)) + v % 2 := by
          rw [pow_succ' 2 (k + 1), Nat.mod_mul]; omega
        rw [e, pow_succ' 2 k]
        omega

end Sys2Proof.Machine
end

