-- ==== Sys2Proof/Laws/Decode.lean ====
section
/-!
SUPPORT. The fields of a word as arithmetic on its value, the value of each encoding, and everything the decoder can
answer, opcode by opcode.
-/

namespace Sys2Proof

theorem toNat_append_eq {m n : Nat} (x : BitVec m) (y : BitVec n) :
    (x ++ y).toNat = x.toNat * 2 ^ n + y.toNat := by
  rw [BitVec.toNat_append, ← Nat.shiftLeft_add_eq_or_of_lt y.isLt, Nat.shiftLeft_eq]

theorem opField_toNat (w : Word) : (opField w).toNat = w.toNat / 16777216 := by
  have := w.isLt
  simp only [opField, BitVec.extractLsb'_toNat, Nat.shiftRight_eq_div_pow]
  omega

theorem opndField_toNat (w : Word) : (opndField w).toNat = w.toNat % 16777216 := by
  simp [opndField, BitVec.extractLsb'_toNat]

theorem mbzS8Field_toNat (w : Word) : (mbzS8Field w).toNat = w.toNat / 256 % 65536 := by
  simp [mbzS8Field, BitVec.extractLsb'_toNat, Nat.shiftRight_eq_div_pow]

theorem selvField_toNat (w : Word) : (selvField w).toNat = w.toNat % 256 := by
  simp [selvField, BitVec.extractLsb'_toNat]

/-- A word whose opcode is op, split into its fields. -/
theorem word_split (w : Word) : w.toNat = (opField w).toNat * 16777216 + (opndField w).toNat := by
  rw [opField_toNat, opndField_toNat]; omega

/-- The operand field, split as format S8 splits it. -/
theorem opnd_split (w : Word) : (opndField w).toNat = (mbzS8Field w).toNat * 256 + (selvField w).toNat := by
  rw [opndField_toNat, mbzS8Field_toNat, selvField_toNat]; omega

theorem encode_setsel_toNat (v : BitVec 8) : (encode (.setsel v)).toNat = 0x02000000 + v.toNat :=
  (toNat_append_eq (m := 24) _ v).trans (by simp)

theorem encode_getng_toNat (v : BitVec 8) : (encode (.getng v)).toNat = 0x06000000 + v.toNat :=
  (toNat_append_eq (m := 24) _ v).trans (by simp)

theorem encode_setmg_toNat (v : BitVec 24) : (encode (.setmg v)).toNat = 0x04000000 + v.toNat :=
  (toNat_append_eq (m := 8) _ v).trans (by simp)

/-! ## The rows of 30_encoding.md R46 -/

theorem and_high_bits (w : Word) (k : Nat) : w &&& (BitVec.allOnes 32 <<< k) = (w >>> k) <<< k := by
  ext i hi
  simp only [BitVec.getElem_and, BitVec.getElem_shiftLeft, BitVec.getElem_allOnes]
  by_cases h : i < k
  · simp [h]
  · have : k + (i - k) = i := by omega
    simp [h, this, BitVec.getLsbD_eq_getElem hi]

section Rows

variable (w : Word) (m : String) (f : Format) (p : Word)

/-- A format Z row accepts one word. -/
theorem accepts_formatZ : OpcodeRow.accepts ⟨m, f, p, 0xFFFFFFFF⟩ w = true ↔ w.toNat = p.toNat := by
  have e : (0xFFFFFFFF : BitVec 32) = BitVec.allOnes 32 := by decide
  unfold OpcodeRow.accepts
  simp only [beq_iff_eq]
  rw [e, BitVec.and_allOnes, ← BitVec.toNat_inj]

/-- A format S8 row looks at bits [31:8]. -/
theorem accepts_formatS8 :
    OpcodeRow.accepts ⟨m, f, p, 0xFFFFFF00⟩ w = true ↔ w.toNat / 256 * 256 = p.toNat := by
  have e : (0xFFFFFF00 : BitVec 32) = BitVec.allOnes 32 <<< 8 := by decide
  unfold OpcodeRow.accepts
  simp only [beq_iff_eq]
  rw [e, and_high_bits, ← BitVec.toNat_inj]
  have := w.isLt
  simp [Nat.shiftRight_eq_div_pow, Nat.shiftLeft_eq]
  rw [Nat.mod_eq_of_lt (by omega)]

/-- A format G24 row looks at bits [31:24]. -/
theorem accepts_formatG24 :
    OpcodeRow.accepts ⟨m, f, p, 0xFF000000⟩ w = true ↔ w.toNat / 16777216 * 16777216 = p.toNat := by
  have e : (0xFF000000 : BitVec 32) = BitVec.allOnes 32 <<< 24 := by decide
  unfold OpcodeRow.accepts
  simp only [beq_iff_eq]
  rw [e, and_high_bits, ← BitVec.toNat_inj]
  have := w.isLt
  simp [Nat.shiftRight_eq_div_pow, Nat.shiftLeft_eq]
  rw [Nat.mod_eq_of_lt (by omega)]

end Rows

/-! ## The decoder, one lemma per opcode -/

section Decode

variable (w : Word)

theorem decode_reserved (h : 7 ≤ (opField w).toNat) : decode w = .error .reservedOpcode := by
  simp [decode, h]

theorem decode_formatZ (h : opField w = 0x00 ∨ opField w = 0x01 ∨ opField w = 0x03 ∨ opField w = 0x05) :
    decode w = if opndField w = 0 then .ok (commandOf w) else .error .nonzeroMbz := by
  unfold decode
  rcases h with h | h | h | h <;> simp only [h] <;> by_cases h0 : opndField w = 0 <;> simp [h0]

theorem decode_formatS8 (h : opField w = 0x02 ∨ opField w = 0x06) :
    decode w = if mbzS8Field w = 0 then .ok (commandOf w) else .error .nonzeroMbz := by
  unfold decode
  rcases h with h | h <;> simp only [h] <;> by_cases h0 : mbzS8Field w = 0 <;> simp [h0]

theorem decode_formatG24 (h : opField w = 0x04) : decode w = .ok (.setmg (opndField w)) := by
  simp [decode, commandOf, h]

/-- The opcode of a word is reserved or one of the seven. -/
theorem opField_cases :
    7 ≤ (opField w).toNat ∨ opField w = 0x00 ∨ opField w = 0x01 ∨ opField w = 0x02 ∨ opField w = 0x03 ∨
      opField w = 0x04 ∨ opField w = 0x05 ∨ opField w = 0x06 := by
  by_cases h : 7 ≤ (opField w).toNat
  · exact .inl h
  · have : ∀ v : BitVec 8, ¬ 7 ≤ v.toNat → v = 0x00 ∨ v = 0x01 ∨ v = 0x02 ∨ v = 0x03 ∨ v = 0x04 ∨ v = 0x05 ∨
        v = 0x06 := by decide
    exact .inr (this _ h)

end Decode

end Sys2Proof
end

