-- ==== Sys2Proof/Laws/Generators.lean ====
section
/-!
SUPPORT. One spec lemma per sub-block: the range of the table and its lookup, of a draw and of what is read from it, of the
envelope, the clamps and the clipper; that a draw keeps a nonzero register nonzero; and the increments at FS = 11025.
-/

namespace Sys2Proof.Machine

/-! ## The random source -/

theorem lfsrStep_ne_zero {l : BitVec 32} (h : l ≠ 0) : lfsrStep l ≠ 0 := by
  intro h0
  apply h
  unfold lfsrStep at h0
  ext i hi
  have hs : l >>> 1 = if l.getLsbD 0 then Config.LFSR_MASK else 0 := by
    simpa using BitVec.xor_eq_zero_iff.mp h0
  split at hs
  · have := congrArg (·.getLsbD 31) hs
    simp [Config.LFSR_MASK] at this
  · rename_i hb
    cases i with
    | zero => simpa using hb
    | succ i =>
      have := congrArg (·.getLsbD i) hs
      simpa [Nat.add_comm, BitVec.getLsbD_eq_getElem hi] using this

theorem draw_ne_zero {l : BitVec 32} (h : l ≠ 0) : draw l ≠ 0 := by
  unfold draw
  exact Function.Iterate.rec (fun x : BitVec 32 => x ≠ 0) h (fun _ hx => lfsrStep_ne_zero hx) _

theorem s16_bounds (l : BitVec 32) : -32768 ≤ s16 l ∧ s16 l ≤ 32767 := by
  have := sext_bounds 16 (uint l)
  unfold s16; omega

theorem s16_eq_toInt (l : BitVec 32) : s16 l = (l.setWidth 16).toInt := by
  unfold s16 sext uint
  congr 1

theorem ofInt_s16 (l : BitVec 32) : BitVec.ofInt 16 (s16 l) = l.setWidth 16 := by
  rw [s16_eq_toInt, BitVec.ofInt_toInt]

theorem u16_bounds (l : BitVec 32) : 0 ≤ u16 l ∧ u16 l ≤ 65535 := by
  have := uint_bounds (l.setWidth 16)
  unfold u16; omega

/-! ## The sine table -/

theorem romSine_bounds (j : Nat) : 0 ≤ romSine j ∧ romSine j ≤ 32767 := by
  have h : ∀ x ∈ ROM_SINE, x ≤ 32767 := by decide +kernel
  unfold romSine
  rw [List.getD_eq_getElem?_getD]
  cases hx : ROM_SINE[j]? with
  | none => simp
  | some x => have := h x (List.mem_of_getElem? hx); simp; omega

theorem sinlut_bounds (ph : BitVec 32) : -32767 ≤ sinlut ph ∧ sinlut ph ≤ 32767 := by
  unfold sinlut
  dsimp only
  have h1 := romSine_bounds ((ph.extractLsb' 22 10).toNat % 256)
  have h2 := romSine_bounds (256 - (ph.extractLsb' 22 10).toNat % 256)
  split <;> omega

/-- The table entry a phase reads, quadrant by quadrant (42_sine_lookup_table.md R66). -/
theorem sinlut_quadrants (ph : BitVec 32) :
    (ph.toNat / 2 ^ 30 = 0 → sinlut ph = romSine (ph.toNat / 2 ^ 22 % 256)) ∧
    (ph.toNat / 2 ^ 30 = 1 → sinlut ph = romSine (256 - ph.toNat / 2 ^ 22 % 256)) ∧
    (ph.toNat / 2 ^ 30 = 2 → sinlut ph = -romSine (ph.toNat / 2 ^ 22 % 256)) ∧
    (ph.toNat / 2 ^ 30 = 3 → sinlut ph = -romSine (256 - ph.toNat / 2 ^ 22 % 256)) := by
  have e : (ph.extractLsb' 22 10).toNat = ph.toNat / 2 ^ 22 := by
    have := ph.isLt
    simp [BitVec.extractLsb'_toNat, Nat.shiftRight_eq_div_pow]; omega
  have : ph.toNat / 2 ^ 22 / 256 = ph.toNat / 2 ^ 30 := by omega
  unfold sinlut
  dsimp only
  rw [e, this]
  refine ⟨?_, ?_, ?_, ?_⟩ <;> intro h <;> simp only [h]

theorem unipolar_bounds {l : Int} (h1 : -32767 ≤ l) (h2 : l ≤ 32767) : 0 ≤ unipolar l ∧ unipolar l ≤ 32767 :=
  asr_bounds 1 (by omega) (by omega)

/-! ## The increments at the table's sample rate (00_scope.md R6) -/

@[simp] theorem INC_SINE_table : INC_SINE Config.table = 171409125 := by decide
@[simp] theorem INC_AM_C_table : INC_AM_C Config.table = 171409125 := by decide
@[simp] theorem INC_AM_L_table : INC_AM_L Config.table = 1947830 := by decide
@[simp] theorem INC_RING_A_table : INC_RING_A Config.table = 171409125 := by decide
@[simp] theorem INC_RING_B_table : INC_RING_B Config.table = 116869858 := by decide
@[simp] theorem INC_HOWL_LO_table : INC_HOWL_LO Config.table = 116869858 := by decide
@[simp] theorem INC_HOWL_HI_table : INC_HOWL_HI Config.table = 584349291 := by decide
@[simp] theorem INC_HOWL_SWEEP_table : INC_HOWL_SWEEP Config.table = 38958 := by decide
@[simp] theorem INC_GRAN_MIN_table : INC_GRAN_MIN Config.table = 77913238 := by decide
@[simp] theorem INC_GRAN_MAX_table : INC_GRAN_MAX Config.table = 779132389 := by decide

/-! ## Phase and scaling -/

/-- A phase advance is the addition of the two registers (41_phase_accumulator.md R62). -/
theorem advance_eq_add (ph inc : BitVec 32) : advance ph inc = ph + inc := by
  unfold advance wrap32 uint
  rw [BitVec.ofInt_add]; simp

/-- The range of a native scaling (48_algorithm_multiplexer.md R94), from the range of what it scales. -/
theorem native_bounds {v lo hi a l h : Int} (h1 : lo ≤ v) (h2 : v ≤ hi) (ha : 0 ≤ a) (hl : l * 32768 ≤ lo * a)
    (hh : hi * a < (h + 1) * 32768) : l ≤ native v a ∧ native v a ≤ h := by
  refine asr_bounds 15 ?_ ?_
  · calc l * 2 ^ 15 ≤ lo * a := by norm_num; exact hl
      _ ≤ v * a := mul_le_mul_of_nonneg_right h1 ha
  · calc v * a ≤ hi * a := mul_le_mul_of_nonneg_right h2 ha
      _ < (h + 1) * 2 ^ 15 := by norm_num; exact hh

/-! ## Filters and clippers -/

theorem ammul_bounds {c m : Int} (h1 : -32767 ≤ c) (h2 : c ≤ 32767) (h3 : -32767 ≤ m) (h4 : m ≤ 32767) :
    -32767 ≤ ammul c m ∧ ammul c m ≤ 32766 := by
  unfold ammul
  have : |c * m| ≤ 32767 * 32767 := by
    rw [abs_mul]
    exact mul_le_mul (abs_le.2 ⟨h1, h2⟩) (abs_le.2 ⟨h3, h4⟩) (abs_nonneg _) (by norm_num)
  rw [abs_le] at this
  apply asr_bounds <;> norm_num <;> omega

theorem biquad_bounds (k : Coefs) (x0 x1 x2 y1 y2 : Int) :
    -131072 ≤ biquad k x0 x1 x2 y1 y2 ∧ biquad k x0 x1 x2 y1 y2 ≤ 131072 :=
  clamp_bounds _ (by decide)

/-! ## The multiplexer -/

section Arms

variable (c : Config) (g : Generators)

@[simp] theorem runGenerator_white : runGenerator c g .white =
    ({ g with white := (genWhite g.white).1 }, (genWhite g.white).2) := rfl
@[simp] theorem runGenerator_pink : runGenerator c g .pink =
    ({ g with pink := (genPink g.pink).1 }, (genPink g.pink).2) := rfl
@[simp] theorem runGenerator_brown : runGenerator c g .brown =
    ({ g with brown := (genBrown g.brown).1 }, (genBrown g.brown).2) := rfl
@[simp] theorem runGenerator_blue : runGenerator c g .blue =
    ({ g with blue := (genBlue g.blue).1 }, (genBlue g.blue).2) := rfl
@[simp] theorem runGenerator_violet : runGenerator c g .violet =
    ({ g with violet := (genViolet g.violet).1 }, (genViolet g.violet).2) := rfl
@[simp] theorem runGenerator_sine : runGenerator c g .sine =
    ({ g with sine := (genSine c g.sine).1 }, (genSine c g.sine).2) := rfl
@[simp] theorem runGenerator_amTremolo : runGenerator c g .amTremolo =
    ({ g with amTremolo := (genAm c g.amTremolo).1 }, (genAm c g.amTremolo).2) := rfl
@[simp] theorem runGenerator_ringMod : runGenerator c g .ringMod =
    ({ g with ringMod := (genRing c g.ringMod).1 }, (genRing c g.ringMod).2) := rfl
@[simp] theorem runGenerator_feedbackHowl : runGenerator c g .feedbackHowl =
    ({ g with feedbackHowl := (genHowl c g.feedbackHowl).1 }, (genHowl c g.feedbackHowl).2) := rfl
@[simp] theorem runGenerator_granular : runGenerator c g .granular =
    ({ g with granular := (genGran c g.granular).1 }, (genGran c g.granular).2) := rfl

/-! What running generator x leaves in each generator's state: its own next state in x, every other one as it was. Cite
these: a check that unfolds two of the generators against each other runs through 32 LFSR steps of an unknown register
and does not end. -/

theorem runGenerator_gen_white (x : Selector) :
    (runGenerator c g x).1.white = if x = .white then (genWhite g.white).1 else g.white := by
  cases x <;> simp
theorem runGenerator_gen_pink (x : Selector) :
    (runGenerator c g x).1.pink = if x = .pink then (genPink g.pink).1 else g.pink := by
  cases x <;> simp
theorem runGenerator_gen_brown (x : Selector) :
    (runGenerator c g x).1.brown = if x = .brown then (genBrown g.brown).1 else g.brown := by
  cases x <;> simp
theorem runGenerator_gen_blue (x : Selector) :
    (runGenerator c g x).1.blue = if x = .blue then (genBlue g.blue).1 else g.blue := by
  cases x <;> simp
theorem runGenerator_gen_violet (x : Selector) :
    (runGenerator c g x).1.violet = if x = .violet then (genViolet g.violet).1 else g.violet := by
  cases x <;> simp
theorem runGenerator_gen_sine (x : Selector) :
    (runGenerator c g x).1.sine = if x = .sine then (genSine c g.sine).1 else g.sine := by
  cases x <;> simp
theorem runGenerator_gen_amTremolo (x : Selector) :
    (runGenerator c g x).1.amTremolo = if x = .amTremolo then (genAm c g.amTremolo).1 else g.amTremolo := by
  cases x <;> simp
theorem runGenerator_gen_ringMod (x : Selector) :
    (runGenerator c g x).1.ringMod = if x = .ringMod then (genRing c g.ringMod).1 else g.ringMod := by
  cases x <;> simp
theorem runGenerator_gen_feedbackHowl (x : Selector) :
    (runGenerator c g x).1.feedbackHowl = if x = .feedbackHowl then (genHowl c g.feedbackHowl).1 else g.feedbackHowl := by
  cases x <;> simp
theorem runGenerator_gen_granular (x : Selector) :
    (runGenerator c g x).1.granular = if x = .granular then (genGran c g.granular).1 else g.granular := by
  cases x <;> simp

end Arms

theorem ofCode_code (x : Selector) : Selector.ofCode x.code = some x := by cases x <;> rfl

theorem generate_code (c : Config) (x : Selector) (g : Generators) : generate c x.code g = runGenerator c g x := by
  simp [generate, ofCode_code]

theorem generate_unsupported {c : Config} {s : BitVec 8} (g : Generators) (h : Selector.ofCode s = none) :
    generate c s g = (g, 0) := by
  simp [generate, h]

end Sys2Proof.Machine
end

