-- ==== Sys2Proof/Laws/State.lean ====
section
/-!
SUPPORT. What each update of the state changes, field by field, so that no later proof unfolds a record update; and what
answering a command does.
-/

namespace Sys2Proof.Machine

section Updates

variable (s : State) (v : BitVec 8) (m : BitVec 16) (g : Generators) (es : List Event) (p : PortId) (q : Port)

@[simp] theorem State.setSel_sel : (s.setSel v).sel = v := rfl
@[simp] theorem State.setSel_mg : (s.setSel v).mg = s.mg := rfl
@[simp] theorem State.setSel_gen : (s.setSel v).gen = s.gen := rfl
@[simp] theorem State.setSel_input : (s.setSel v).input = s.input := rfl
@[simp] theorem State.setSel_cur : (s.setSel v).cur = s.cur := rfl
@[simp] theorem State.setSel_portS : (s.setSel v).portS = s.portS := rfl
@[simp] theorem State.setSel_portC : (s.setSel v).portC = s.portC := rfl

@[simp] theorem State.setMg_sel : (s.setMg m).sel = s.sel := rfl
@[simp] theorem State.setMg_mg : (s.setMg m).mg = m := rfl
@[simp] theorem State.setMg_gen : (s.setMg m).gen = s.gen := rfl
@[simp] theorem State.setMg_input : (s.setMg m).input = s.input := rfl
@[simp] theorem State.setMg_cur : (s.setMg m).cur = s.cur := rfl
@[simp] theorem State.setMg_portS : (s.setMg m).portS = s.portS := rfl
@[simp] theorem State.setMg_portC : (s.setMg m).portC = s.portC := rfl

@[simp] theorem State.setGen_sel : (s.setGen g).sel = s.sel := rfl
@[simp] theorem State.setGen_mg : (s.setGen g).mg = s.mg := rfl
@[simp] theorem State.setGen_gen : (s.setGen g).gen = g := rfl
@[simp] theorem State.setGen_input : (s.setGen g).input = s.input := rfl
@[simp] theorem State.setGen_cur : (s.setGen g).cur = s.cur := rfl
@[simp] theorem State.setGen_portS : (s.setGen g).portS = s.portS := rfl
@[simp] theorem State.setGen_portC : (s.setGen g).portC = s.portC := rfl

@[simp] theorem State.setInput_sel : (s.setInput es).sel = s.sel := rfl
@[simp] theorem State.setInput_mg : (s.setInput es).mg = s.mg := rfl
@[simp] theorem State.setInput_gen : (s.setInput es).gen = s.gen := rfl
@[simp] theorem State.setInput_input : (s.setInput es).input = es := rfl
@[simp] theorem State.setInput_cur : (s.setInput es).cur = s.cur := rfl
@[simp] theorem State.setInput_portS : (s.setInput es).portS = s.portS := rfl
@[simp] theorem State.setInput_portC : (s.setInput es).portC = s.portC := rfl

@[simp] theorem State.accept_sel : (s.accept p es).sel = s.sel := rfl
@[simp] theorem State.accept_mg : (s.accept p es).mg = s.mg := rfl
@[simp] theorem State.accept_gen : (s.accept p es).gen = s.gen := rfl
@[simp] theorem State.accept_input : (s.accept p es).input = es := rfl
@[simp] theorem State.accept_cur : (s.accept p es).cur = p := rfl
@[simp] theorem State.accept_portS : (s.accept p es).portS = s.portS := rfl
@[simp] theorem State.accept_portC : (s.accept p es).portC = s.portC := rfl

@[simp] theorem State.setPort_sel : (s.setPort p q).sel = s.sel := by cases p <;> rfl
@[simp] theorem State.setPort_mg : (s.setPort p q).mg = s.mg := by cases p <;> rfl
@[simp] theorem State.setPort_gen : (s.setPort p q).gen = s.gen := by cases p <;> rfl
@[simp] theorem State.setPort_input : (s.setPort p q).input = s.input := by cases p <;> rfl
@[simp] theorem State.setPort_cur : (s.setPort p q).cur = s.cur := by cases p <;> rfl

@[simp] theorem State.assertReset_sel : (s.assertReset es).sel = Config.RESET_SEL := rfl
@[simp] theorem State.assertReset_mg : (s.assertReset es).mg = Config.RESET_MG := rfl
@[simp] theorem State.assertReset_gen : (s.assertReset es).gen = Generators.reset := rfl
@[simp] theorem State.assertReset_input : (s.assertReset es).input = es := rfl
@[simp] theorem State.assertReset_cur : (s.assertReset es).cur = .portS := rfl

end Updates

section Ports

variable (s : State) (v : BitVec 8) (m : BitVec 16) (g : Generators) (es : List Event) (p r : PortId) (q : Port)

@[simp] theorem State.setSel_port : (s.setSel v).port p = s.port p := by cases p <;> rfl
@[simp] theorem State.setMg_port : (s.setMg m).port p = s.port p := by cases p <;> rfl
@[simp] theorem State.setGen_port : (s.setGen g).port p = s.port p := by cases p <;> rfl
@[simp] theorem State.setInput_port : (s.setInput es).port p = s.port p := by cases p <;> rfl
@[simp] theorem State.accept_port : (s.accept r es).port p = s.port p := by cases p <;> rfl
@[simp] theorem State.setPort_port_self : (s.setPort p q).port p = q := by cases p <;> rfl
theorem State.setPort_port_of_ne {p r : PortId} (h : r ≠ p) : (s.setPort p q).port r = s.port r := by
  cases p <;> cases r <;> first | rfl | exact absurd rfl h

@[simp] theorem State.assertReset_port_rx : ((s.assertReset es).port p).rx = [] := by cases p <;> rfl
@[simp] theorem State.assertReset_port_responses :
    ((s.assertReset es).port p).responses = (s.port p).responses := by cases p <;> rfl

end Ports

section Respond

variable (s : State) (r : Word)

@[simp] theorem Port.answer_rx (q : Port) : (q.answer r).rx = q.rx := rfl
@[simp] theorem Port.answer_responses (q : Port) : (q.answer r).responses = q.responses ++ [r] := rfl

@[simp] theorem State.respond_sel : (s.respond r).sel = s.sel := by simp [State.respond]
@[simp] theorem State.respond_mg : (s.respond r).mg = s.mg := by simp [State.respond]
@[simp] theorem State.respond_gen : (s.respond r).gen = s.gen := by simp [State.respond]
@[simp] theorem State.respond_input : (s.respond r).input = s.input := by simp [State.respond]
@[simp] theorem State.respond_cur : (s.respond r).cur = s.cur := by simp [State.respond]
@[simp] theorem State.respond_port_cur : (s.respond r).port s.cur = (s.port s.cur).answer r := by
  simp [State.respond]
theorem State.respond_port_of_ne {p : PortId} (h : p ≠ s.cur) : (s.respond r).port p = s.port p := by
  simpa [State.respond] using s.setPort_port_of_ne _ h
@[simp] theorem State.respond_port_rx (p : PortId) : ((s.respond r).port p).rx = (s.port p).rx := by
  by_cases h : p = s.cur
  · subst h; simp
  · rw [s.respond_port_of_ne r h]

end Respond

/-- The value of a response word that is no error: its data. -/
theorem okWord_toNat (data : BitVec 16) : (okWord data).toNat = data.toNat := by
  have := data.isLt
  simp [okWord]; omega

end Sys2Proof.Machine
end

