-- ==== Sys2Proof/Laws/Step.lean ====
section
/-!
SUPPORT. Everything a command and a step can do, said once.
-/

namespace Sys2Proof.Machine

/-- A command executed in s: some registers or generators are written, and then one response goes out. -/
theorem exec_answers (i : Instr) (s : State) :
    ∃ (u : State) (r : Word), exec i s = .next (u.respond r) ∧ u.input = s.input ∧ u.cur = s.cur ∧ u.portS = s.portS ∧
      u.portC = s.portC := by
  cases i <;> exact ⟨_, _, rfl, rfl, rfl, rfl, rfl⟩

/-- What each command does to the registers and the generators. -/
theorem exec_registers {i : Instr} {s t : State} (h : exec i s = .next t) :
    t.sel = (match i with | .setsel v => v | _ => s.sel) ∧
    t.mg = (match i with | .setmg v => BitVec.ofInt 16 (clampMG (gainOperand v)) | _ => s.mg) ∧
    t.gen = (match i with | .produce => (generate Config.table s.sel s.gen).1 | _ => s.gen) := by
  cases i <;> cases h <;> simp [produceWith, getngWith]

/-- The word that runs, and the state it runs in: the registers, the generators and the responses are those of s, and an
adapter holds what it held or has handed its word on. -/
theorem fetch_run {s u : State} {w : Word} (h : s.fetch = .run w u) :
    u.sel = s.sel ∧ u.mg = s.mg ∧ u.gen = s.gen ∧
    ∀ p, (u.port p).responses = (s.port p).responses ∧ ((u.port p).rx = (s.port p).rx ∨ (u.port p).rx = []) := by
  unfold State.fetch at h
  split at h
  · cases h
  · cases h; simp
  · cases h; simp
  · rename_i p b rest _
    unfold State.receiveByte at h
    split at h
    · cases h
      refine ⟨by simp, by simp, by simp, fun q => ?_⟩
      rw [State.accept_port]
      by_cases hq : q = p
      · subst hq; simp
      · rw [s.setPort_port_of_ne _ hq]; simp
    · cases h
  · cases h

/-- A step with no command: idle ports, a byte of a word that is not yet whole, or reset. -/
theorem fetch_quiet {s t : State} (h : s.fetch = .quiet t) :
    (s.input = [] ∧ t = s) ∨
    (∃ p b rest, s.input = .byte p b :: rest ∧
      t = (s.setPort p ⟨(s.port p).rx ++ [b], (s.port p).responses⟩).setInput rest ∧
      (s.port p).rx.length ≠ 3) ∨
    ∃ a b rest, s.input = .reset a b :: rest ∧ t = s.assertReset rest := by
  unfold State.fetch at h
  split at h
  · rename_i hi; cases h; exact .inl ⟨hi, rfl⟩
  · cases h
  · cases h
  · rename_i p b rest hi
    unfold State.receiveByte at h
    split at h
    · cases h
    · rename_i hne
      cases h
      refine .inr (.inl ⟨p, b, rest, hi, rfl, fun hl => ?_⟩)
      match hrx : (s.port p).rx, hl with
      | [b0, b1, b2], _ => exact hne b0 b1 b2 b (by rw [hrx]; rfl)
  · rename_i a b rest hi; cases h; exact .inr (.inr ⟨a, b, rest, hi, rfl⟩)

/-- Everything a step can do: run a decoded command, answer an error word, or do one of the three quiet things. -/
theorem step_cases {s t : State} (h : step s = .next t) :
    (∃ w u i, s.fetch = .run w u ∧ decode w = .ok i ∧ exec i u = .next t) ∨
    (∃ w u e, s.fetch = .run w u ∧ decode w = .error e ∧ t = u.raiseCmdError e) ∨
    s.fetch = .quiet t := by
  unfold step at h
  split at h
  · rename_i u hf; cases h; exact .inr (.inr hf)
  · rename_i w u hf
    unfold runWord at h
    split at h
    · rename_i i hd; exact .inl ⟨w, u, i, hf, hd, h⟩
    · rename_i e hd; cases h; exact .inr (.inl ⟨w, u, e, hf, hd, rfl⟩)

/-- A run of n + 1 steps, by its first step. -/
theorem run_succ_of_next {s t : State} (n : Nat) (h : step s = .next t) : core.run (n + 1) s = core.run n t := by
  have hr : ∀ (M : Host.Core) (u v : M.State), M.step u = .next v → M.run (n + 1) u = M.run n v := by
    intro M u v hu
    simp only [Host.Core.run, hu]
  exact hr core s t h

end Sys2Proof.Machine
end

