-- ==== Sys2Proof/Laws/Legal.lean ====
section
/-!
SUPPORT. Each generator keeps its own state legal, and a slot's values never leave their registers' widths.
-/

namespace Sys2Proof.Machine

/-! ## BROWN -/

theorem genBrown_accLegal (x : Brown) : (genBrown x).1.AccLegal := by
  have h := clamp_bounds (lo := -32768) (hi := 32768)
    (asr (x.acc.toInt * Config.BROWN_DECAY) 15 + asr (s16 (draw x.lfsr)) Config.BROWN_STEP_SHIFT) (by decide)
  unfold Brown.AccLegal genBrown
  dsimp only
  rwa [toInt_ofInt_of_bounds (by decide) (by omega) (by omega)]

/-! ## FEEDBACK_HOWL -/

/-- The noise drive is in [-655, 654] (46_iir_biquad.md R87). -/
theorem howlDrive_bounds (l : BitVec 32) :
    -655 ≤ asr (s16 l * Config.HOWL_NOISE_AMP) 15 ∧ asr (s16 l * Config.HOWL_NOISE_AMP) 15 ≤ 654 := by
  have := s16_bounds l
  exact asr_bounds 15 (by unfold Config.HOWL_NOISE_AMP; omega) (by unfold Config.HOWL_NOISE_AMP; omega)

theorem genHowl_linesLegal (c : Config) {x : FeedbackHowl} (h : x.LinesLegal) : (genHowl c x).1.LinesLegal := by
  obtain ⟨h1, -, h3, -⟩ := h
  have hd := howlDrive_bounds (draw x.lfsr)
  have hy := biquad_bounds (howlcoef (howlCentre c (advance x.lph (INC_HOWL_SWEEP c))))
    (asr (s16 (draw x.lfsr) * Config.HOWL_NOISE_AMP) 15) x.x1.toInt x.x2.toInt x.y1.toInt x.y2.toInt
  unfold FeedbackHowl.LinesLegal genHowl
  dsimp only
  rw [toInt_ofInt_of_bounds (by decide) (by omega) (by omega),
    toInt_ofInt_of_bounds (by decide) (by omega) (by omega)]
  exact ⟨hd, h1, hy, h3⟩

/-! ## GRANULAR -/

theorem granDur_bounds (l : BitVec 32) :
    220 ≤ 220 + asr (u16 l * 883) 16 ∧ 220 + asr (u16 l * 883) 16 ≤ 1102 := by
  have := u16_bounds l
  have := asr_bounds (a := u16 l * 883) (lo := 0) (hi := 882) 16 (by omega) (by omega)
  omega

theorem granAmp_bounds (l : BitVec 32) :
    6554 ≤ 6554 + asr (u16 l * 13108) 16 ∧ 6554 + asr (u16 l * 13108) 16 ≤ 19661 := by
  have := u16_bounds l
  have := asr_bounds (a := u16 l * 13108) (lo := 0) (hi := 13107) 16 (by omega) (by omega)
  omega

theorem granDec_bounds {dur : Int} (h1 : 220 ≤ dur) (h2 : dur ≤ 1102) :
    32024 ≤ 32768 - 163840 / dur ∧ 32768 - 163840 / dur ≤ 32620 := by
  have hu : 163840 / dur ≤ 744 := by
    apply Int.lt_add_one_iff.mp; apply Int.ediv_lt_of_lt_mul <;> omega
  have hl : 148 ≤ 163840 / dur := by
    apply Int.le_ediv_of_mul_le <;> omega
  omega

theorem newGrain_legal (c : Config) (lInc lDur lAmp : BitVec 32) : (newGrain c lInc lDur lAmp).Legal := by
  have hd := granDur_bounds lDur
  have ha := granAmp_bounds lAmp
  have hk := granDec_bounds hd.1 hd.2
  have e1 := uint_ofInt_of_bounds (n := 16) (v := 220 + asr (u16 lDur * 883) 16) (by omega) (by omega)
  have e2 := uint_ofInt_of_bounds (n := 16) (v := 6554 + asr (u16 lAmp * 13108) 16) (by omega) (by omega)
  have e3 := uint_ofInt_of_bounds (n := 16) (v := 32768 - 163840 / (220 + asr (u16 lDur * 883) 16)) (by omega) (by omega)
  unfold uint at e1 e2 e3
  unfold Slot.Legal newGrain
  simp only [Config.GRAN_DUR_MIN, Config.GRAN_DUR_MAX, Config.GRAN_AMP_MIN, Config.GRAN_AMP_MAX, Config.GRAN_K,
    Int.reduceSub, Int.reduceAdd]
  refine ⟨by omega, .inr ⟨by omega, by omega⟩, by omega, fun _ => ⟨by omega, by omega⟩⟩

/-- What a sample does to the fields of an active slot, as plain numbers: the register widths cut nothing off. -/
theorem stepSlot_active {S : Slot} (h : S.Legal) (ha : S.act = true) :
    (stepSlot S).1.amp.toNat = S.amp.toNat * S.dec.toNat / 32768 ∧
    (stepSlot S).1.rem.toNat = S.rem.toNat - 1 ∧ (stepSlot S).1.dec = S.dec ∧
    ((stepSlot S).1.act = true → 1 < S.rem.toNat) := by
  obtain ⟨h1, -, h3, h4⟩ := h
  have h5 := h4 ha
  have hle : S.amp.toNat * S.dec.toNat / 32768 ≤ S.amp.toNat * 65535 / 32768 :=
    Nat.div_le_div_right (Nat.mul_le_mul_left _ (by have := S.dec.isLt; omega))
  have e1 : BitVec.ofInt 16 (asr (uint S.amp * uint S.dec) 15)
      = BitVec.ofNat 16 (S.amp.toNat * S.dec.toNat / 32768) := by
    have : asr (uint S.amp * uint S.dec) 15 = ((S.amp.toNat * S.dec.toNat / 32768 : Nat) : Int) := by
      unfold asr uint; push_cast; norm_num
    rw [this, BitVec.ofInt_natCast]
  have e2 : BitVec.ofInt 16 (uint S.rem - 1) = BitVec.ofNat 16 (S.rem.toNat - 1) := by
    have : uint S.rem - 1 = ((S.rem.toNat - 1 : Nat) : Int) := by unfold uint; omega
    rw [this, BitVec.ofInt_natCast]
  unfold stepSlot
  rw [if_pos ha]
  dsimp only
  rw [e1, e2]
  refine ⟨by simp; omega, by simp; omega, rfl, fun hact => ?_⟩
  simp only [Bool.not_eq_true', decide_eq_false_iff_not, not_or] at hact
  by_contra hc
  exact hact.1 (by rw [show S.rem.toNat - 1 = 0 by omega]; rfl)

theorem stepSlot_inactive {S : Slot} (h : S.act = false) : stepSlot S = (S, 0) := by
  simp [stepSlot, h]

theorem stepSlot_legal {S : Slot} (h : S.Legal) : (stepSlot S).1.Legal := by
  cases ha : S.act with
  | false => rw [stepSlot_inactive ha]; exact h
  | true =>
    obtain ⟨e1, e2, e3, e4⟩ := stepSlot_active h ha
    obtain ⟨h1, h2, h3, h4⟩ := h
    have h5 := h4 ha
    have hdec : S.dec.toNat ≤ 32768 := by omega
    have hamp : S.amp.toNat * S.dec.toNat / 32768 ≤ S.amp.toNat :=
      Nat.div_le_of_le_mul (by rw [Nat.mul_comm]; exact Nat.mul_le_mul_right _ hdec)
    unfold Slot.Legal
    rw [e1, e2, e3]
    exact ⟨by omega, h2, by omega, fun hact => ⟨h5.1, by have := e4 hact; omega⟩⟩

@[simp] theorem grainStep_lfsr (q : Granular) : (grainStep q).lfsr = q.lfsr := rfl

theorem grainStep_slot (q : Granular) : (grainStep q).slot = mapSlots (fun S => (stepSlot S).1) q.slot := rfl

theorem mapSlots_getElem (f : Slot → Slot) (v : Vector Slot 8) (k : Nat) (hk : k < 8) :
    (mapSlots f v)[k] = f v[k] := by
  simp [mapSlots]

theorem mapSlots_toList (f : Slot → Slot) (v : Vector Slot 8) : (mapSlots f v).toList = v.toList.map f := rfl

theorem grainStep_slotsLegal {q : Granular} (h : q.SlotsLegal) : (grainStep q).SlotsLegal := by
  intro S hS
  unfold grainStep at hS
  rw [mapSlots_toList] at hS
  obtain ⟨T, hT, rfl⟩ := List.mem_map.mp hS
  exact stepSlot_legal (h T hT)

/-- Everything the spawner can do: draw once, or fill one free slot after four draws. -/
theorem spawn_cases (c : Config) (q : Granular) :
    spawn c q = { q with lfsr := draw q.lfsr } ∨
    ∃ k, lowestFree q.slot = some k ∧
      spawn c q = ⟨draw (draw (draw (draw q.lfsr))),
        q.slot.setIfInBounds k (newGrain c (draw (draw q.lfsr)) (draw (draw (draw q.lfsr)))
          (draw (draw (draw (draw q.lfsr)))))⟩ := by
  unfold spawn
  dsimp only
  split
  · exact .inl rfl
  · rename_i k hk
    split at hk
    · exact .inr ⟨k, hk, rfl⟩
    · cases hk

theorem spawn_slotsLegal (c : Config) {q : Granular} (h : q.SlotsLegal) : (spawn c q).SlotsLegal := by
  rcases spawn_cases c q with e | ⟨k, -, e⟩ <;> rw [e]
  · exact h
  · intro S hS
    rw [Vector.toList_setIfInBounds] at hS
    rcases List.mem_or_eq_of_mem_set hS with h1 | rfl
    · exact h S h1
    · exact newGrain_legal ..

theorem genGran_slotsLegal (c : Config) {q : Granular} (h : q.SlotsLegal) : (genGran c q).1.SlotsLegal :=
  grainStep_slotsLegal (spawn_slotsLegal c h)

/-! ## The random sources -/

theorem spawn_lfsr_ne_zero (c : Config) {q : Granular} (h : q.lfsr ≠ 0) : (spawn c q).lfsr ≠ 0 := by
  rcases spawn_cases c q with e | ⟨k, -, e⟩ <;> rw [e]
  · exact draw_ne_zero h
  · exact draw_ne_zero (draw_ne_zero (draw_ne_zero (draw_ne_zero h)))

theorem genGran_lfsr (c : Config) (q : Granular) : (genGran c q).1.lfsr = (spawn c q).lfsr := by
  simp only [genGran, grainStep_lfsr]

theorem genPink_lfsr_ne_zero {x : Pink} (h : x.lfsr ≠ 0) : (genPink x).1.lfsr ≠ 0 := by
  unfold genPink
  dsimp only
  split
  · exact draw_ne_zero (draw_ne_zero h)
  · exact draw_ne_zero h

end Sys2Proof.Machine
end

