-- ==== Sys2Proof/Laws/Observe.lean ====
section
/-!
SUPPORT. Runs over lists of inputs: idle steps, runs one after the other, and everything that taking one input can do.
-/

namespace Sys2Proof.Machine

/-- Idle ports: any number of steps. -/
theorem run_idle {s : State} (h : s.input = []) (n : Nat) : core.run n s = .next s := by
  induction n with
  | zero => rfl
  | succ n ih =>
    have hs : step s = .next s := by unfold step State.fetch; rw [h]
    rw [run_succ_of_next n hs, ih]

/-- A run of m + n steps is a run of m and then a run of n. -/
theorem run_add_of_next {s t : State} (m n : Nat) (h : core.run m s = .next t) : core.run (m + n) s = core.run n t := by
  have hr : ∀ (M : Host.Core) (m : Nat) (u v : M.State), M.run m u = .next v → M.run (m + n) u = M.run n v := by
    intro M m
    induction m with
    | zero => intro u v hu; cases hu; rw [Nat.zero_add]
    | succ m ih =>
      intro u v hu
      rw [Nat.add_right_comm]
      simp only [Host.Core.run] at hu ⊢
      cases hs : M.step u with
      | next w => simp only [hs] at hu ⊢; exact ih w v hu
      | fault f => simp only [hs] at hu; cases hu
      | refused r => simp only [hs] at hu; cases hu
  exact hr core m s t h

/-! ## Nothing but the fetch reads the inputs still to come -/

@[simp] theorem State.setInput_setInput (s : State) (es fs : List Event) : (s.setInput es).setInput fs = s.setInput fs := rfl

theorem respond_setInput (s : State) (es : List Event) (r : Word) :
    (s.setInput es).respond r = (s.respond r).setInput es := by
  rcases s with ⟨_, _, _, _, c, _, _⟩
  cases c <;> rfl

theorem setPort_setInput (s : State) (es : List Event) (p : PortId) (q : Port) :
    (s.setInput es).setPort p q = (s.setPort p q).setInput es := by
  cases p <;> rfl

/-- A command, whatever inputs are still to come: it writes registers or generators, and then one response goes out. -/
theorem exec_frame (i : Instr) (s : State) :
    ∃ (u : State) (r : Word), u.cur = s.cur ∧ (∀ q, u.port q = s.port q) ∧
      ∀ es, exec i (s.setInput es) = .next ((u.setInput es).respond r) := by
  cases i with
  | nop => exact ⟨s, 0, rfl, fun _ => rfl, fun _ => rfl⟩
  | produce =>
    exact ⟨s.setGen (generate Config.table s.sel s.gen).1, wrap32 (sampleOf Config.table s), rfl, fun _ => by simp,
      fun _ => rfl⟩
  | setsel v => exact ⟨s.setSel v, 0, rfl, fun _ => by simp, fun _ => rfl⟩
  | getsel => exact ⟨s, okWord (s.sel.setWidth 16), rfl, fun _ => rfl, fun _ => rfl⟩
  | setmg v => exact ⟨s.setMg (BitVec.ofInt 16 (clampMG (gainOperand v))), 0, rfl, fun _ => by simp, fun _ => rfl⟩
  | getmg => exact ⟨s, okWord s.mg, rfl, fun _ => rfl, fun _ => rfl⟩
  | getng v => exact ⟨s, okWord (romNg Config.table v), rfl, fun _ => rfl, fun _ => rfl⟩

/-- A word executed at the port s.cur: what comes of it but for the inputs to come does not depend on them, and it is
answered once, at that port. -/
theorem runWord_frame (w : Word) (s : State) :
    ∃ (t : State) (r : Word), (∀ es, runWord w (s.setInput es) = .next (t.setInput es)) ∧
      (t.port s.cur).responses = (s.port s.cur).responses ++ [r] ∧ ∀ q, q ≠ s.cur → t.port q = s.port q := by
  obtain ⟨u, r, hc, hp, h⟩ : ∃ (u : State) (r : Word), u.cur = s.cur ∧ (∀ q, u.port q = s.port q) ∧
      ∀ es, runWord w (s.setInput es) = .next ((u.setInput es).respond r) := by
    unfold runWord
    cases decode w with
    | ok i => exact exec_frame i s
    | error e => exact ⟨s, errWord e, rfl, fun _ => rfl, fun _ => rfl⟩
  refine ⟨u.respond r, r, fun es => by rw [h, respond_setInput], ?_, fun q hq => ?_⟩
  · rw [← hc, u.respond_port_cur, hp, Port.answer_responses]
  · rw [u.respond_port_of_ne r (by rw [hc]; exact hq), hp]

/-- The responses at every port in t are those in s with some more at the end. -/
def Extends (s t : State) : Prop := ∀ p, (s.port p).responses <+: (t.port p).responses

theorem Extends.trans {s t u : State} (h : Extends s t) (k : Extends t u) : Extends s u :=
  fun p => (h p).trans (k p)

theorem extends_of_responses_eq {s t : State} (h : ∀ p, (t.port p).responses = (s.port p).responses) : Extends s t :=
  fun p => by rw [h p]

/-- A command word at port p is taken by one step, and answered at p. -/
theorem step_command (s : State) (p : PortId) (w : Word) :
    ∃ t : State, (∀ es, step (s.setInput (.command p w :: es)) = .next (t.setInput es)) ∧ Extends s t ∧
      (t.port p).responses.length = (s.port p).responses.length + 1 := by
  obtain ⟨t, r, h, hp, hq⟩ := runWord_frame w (s.accept p [])
  simp only [State.accept_cur, State.accept_port] at hp hq
  refine ⟨t, fun es => h es, fun q => ?_, by rw [hp]; simp⟩
  by_cases e : q = p
  · subst e; rw [hp]; exact List.prefix_append _ _
  · rw [hq q e]

/-- Everything taking one input can do: it is taken in one step or two, whatever comes after it; no response is taken back;
and a word at port p is answered there. -/
theorem run_event (s : State) (e : Event) :
    ∃ (c : Nat) (t : State), c ≤ 2 ∧ (∀ es, core.run c (s.setInput (e :: es)) = .next (t.setInput es)) ∧ Extends s t ∧
      ∀ p, e.hasWordAt p = true → (s.port p).responses.length < (t.port p).responses.length := by
  have one : ∀ (u v : State), step u = .next v → core.run 1 u = .next v := fun u v h => run_succ_of_next 0 h
  cases e with
  | command p w =>
    obtain ⟨t, h, hx, hl⟩ := step_command s p w
    refine ⟨1, t, by omega, fun es => one _ _ (h es), hx, fun q hq => ?_⟩
    have : p = q := by simpa [Event.hasWordAt] using hq
    subst this; omega
  | sameCycle ws wc =>
    obtain ⟨t, h, hx, hl⟩ := step_command s .portS ws
    obtain ⟨u, k, kx, kl⟩ := step_command t .portC wc
    refine ⟨2, u, le_rfl, fun es => ?_, hx.trans kx, fun q _ => ?_⟩
    · have h1 : step (s.setInput (.sameCycle ws wc :: es)) = .next (t.setInput (.command .portC wc :: es)) :=
        h (.command .portC wc :: es)
      rw [run_succ_of_next 1 h1]
      exact one _ _ (k es)
    · have h1 := (hx q).length_le
      have h2 := (kx q).length_le
      cases q <;> omega
  | byte p b =>
    by_cases hl : ∃ b0 b1 b2, (s.port p).rx = [b0, b1, b2]
    · obtain ⟨b0, b1, b2, hr⟩ := hl
      obtain ⟨t, h, hx, -⟩ := step_command (s.setPort p ⟨[], (s.port p).responses⟩) p (wordOfBytes b0 b1 b2 b)
      refine ⟨1, t, by omega, fun es => one _ _ ?_, Extends.trans (extends_of_responses_eq fun q => ?_) hx,
        fun q hq => by simp [Event.hasWordAt] at hq⟩
      · have := h es
        unfold step State.fetch State.receiveByte at this ⊢
        simp only [State.setInput_input, State.setInput_port, hr] at this ⊢
        rw [← this, setPort_setInput]
        rfl
      · by_cases e : q = p
        · subst e; simp
        · rw [s.setPort_port_of_ne _ e]
    · refine ⟨1, s.setPort p ⟨(s.port p).rx ++ [b], (s.port p).responses⟩, by omega, fun es => one _ _ ?_,
        extends_of_responses_eq fun q => ?_, fun q hq => by simp [Event.hasWordAt] at hq⟩
      · unfold step State.fetch State.receiveByte
        simp only [State.setInput_input, State.setInput_port]
        split
        · rename_i h
          split at h
          · cases h
          · cases h; rw [setPort_setInput]; rfl
        · rename_i h
          split at h
          · rename_i b0 b1 b2 b3 hb
            refine absurd ⟨b0, b1, b2, ?_⟩ hl
            exact (List.append_inj' (s₂ := [b0, b1, b2]) (t₂ := [b3]) hb rfl).1
          · cases h
      · by_cases e : q = p
        · subst e; simp
        · rw [s.setPort_port_of_ne _ e]
  | reset a b =>
    exact ⟨1, s.assertReset [], by omega, fun es => one _ _ rfl,
      extends_of_responses_eq fun q => by simp, fun q hq => by simp [Event.hasWordAt] at hq⟩

end Sys2Proof.Machine
end

