-- ==== Sys2Proof/Laws/PerInstr.lean ====
section
/-!
SUPPORT. One statement for every command: its word matches its own row of the table of 30_encoding.md R46, and that row
is one of the table's.
-/

namespace Sys2Proof.Laws

/-- The family's statement: the row of command i is in the table, and accepts the word of i. -/
def EncodeRow.Statement (i : Instr) : Prop := i.row ∈ opcodeRows ∧ i.row.accepts (encode i) = true

theorem EncodeRow.nop : EncodeRow.Statement .nop := by unfold EncodeRow.Statement; decide

theorem EncodeRow.produce : EncodeRow.Statement .produce := by unfold EncodeRow.Statement; decide

theorem EncodeRow.setsel (selv : BitVec 8) : EncodeRow.Statement (.setsel selv) := by
  refine ⟨by simp [Instr.row, opcodeRows], ?_⟩
  have := encode_setsel_toNat selv
  have := selv.isLt
  rw [Instr.row, accepts_formatS8]; simp; omega

theorem EncodeRow.getsel : EncodeRow.Statement .getsel := by unfold EncodeRow.Statement; decide

theorem EncodeRow.setmg (gain24 : BitVec 24) : EncodeRow.Statement (.setmg gain24) := by
  refine ⟨by simp [Instr.row, opcodeRows], ?_⟩
  have := encode_setmg_toNat gain24
  have := gain24.isLt
  rw [Instr.row, accepts_formatG24]; simp; omega

theorem EncodeRow.getmg : EncodeRow.Statement .getmg := by unfold EncodeRow.Statement; decide

theorem EncodeRow.getng (selv : BitVec 8) : EncodeRow.Statement (.getng selv) := by
  refine ⟨by simp [Instr.row, opcodeRows], ?_⟩
  have := encode_getng_toNat selv
  have := selv.isLt
  rw [Instr.row, accepts_formatS8]; simp; omega

end Sys2Proof.Laws
end

