-- ==== Sys2Proof/Tests/Slice0.lean ====
section
/-!
SUPPORT. Tests. Every expected value is one of the spec's own: the worked encodings of 30_encoding.md section 6, the words
written out from its field tables, or a vector of 95_test_vectors.md (its section is named in the docstring). The
theorems named `witness_…` show, for each claim with hypotheses, inputs that meet all of them, at the ends of the ranges
the claim names.
-/

namespace Sys2Proof.Tests

open Sys2Proof Sys2Proof.Machine Sys2Proof.Claims

/-- The reset state with SEL and MG set. -/
def start (sel : BitVec 8) (mg : BitVec 16) : State := { State.reset with sel := sel, mg := mg }

/-- The reset state with SEL set and inputs to come. -/
def fed (input : List Event) : State := { State.reset with input := input }

/-- The last response at port S after an outcome. -/
def answerS : Host.Outcome State Fault Refusal → Option Word
  | .next t => t.portS.responses.getLast?
  | .fault _ | .refused _ => none

/-- A property of the state after an outcome. -/
def after (o : Host.Outcome State Fault Refusal) (p : State → Bool) : Bool :=
  match o with
  | .next t => p t
  | .fault _ | .refused _ => false

/-- PRODUCE with SEL = v in the reset state otherwise. -/
def first (v : BitVec 8) : Option Word := answerS (exec .produce (start v 32768))

/-! ## Which words are commands -/

theorem test_wf_refuses_a_reserved_opcode :
    wordWellFormed 0x07000000 = false ∧ wordWellFormed 0xFFFFFFFF = false := by decide

theorem test_wf_refuses_nonzero_mbz_of_format_Z :
    wordWellFormed 0x00000001 = false ∧ wordWellFormed 0x01000001 = false ∧ wordWellFormed 0x03400000 = false ∧
    wordWellFormed 0x05800000 = false := by decide

theorem test_wf_refuses_nonzero_mbz_of_format_S8 :
    wordWellFormed 0x02000100 = false ∧ wordWellFormed 0x06010000 = false ∧ wordWellFormed 0x06800000 = false := by
  decide

/-- The assembler's range checks (R50). -/
theorem test_assembler_refuses_out_of_range :
    Asm.Stmt.assemble (.setsel 256) = .error .outOfRange ∧ Asm.Stmt.assemble (.getng (-1)) = .error .outOfRange ∧
    Asm.Stmt.assemble (.setmg 8388608) = .error .outOfRange ∧
    Asm.Stmt.assemble (.word (2 ^ 32)) = .error .outOfRange ∧ Asm.Stmt.assemble (.produce 0) = .error .outOfRange := by
  decide

/-! ## Decoding: one word per command, its bits written out from 30_encoding.md R43, R44 and R46 -/

theorem test_decode_nop : decode (0b00000000#8 ++ 0b000000000000000000000000#24 : BitVec 32) = .ok .nop := by decide

theorem test_decode_produce :
    decode (0b00000001#8 ++ 0b000000000000000000000000#24 : BitVec 32) = .ok .produce := by decide

theorem test_decode_setsel :
    decode (0b00000010#8 ++ 0b0000000000000000#16 ++ 0b10010110#8 : BitVec 32) = .ok (.setsel 0b10010110) := by decide

theorem test_decode_getsel :
    decode (0b00000011#8 ++ 0b000000000000000000000000#24 : BitVec 32) = .ok .getsel := by decide

theorem test_decode_setmg :
    decode (0b00000100#8 ++ 0b100000000000000000000001#24 : BitVec 32) = .ok (.setmg 0b100000000000000000000001) := by
  decide

theorem test_decode_getmg :
    decode (0b00000101#8 ++ 0b000000000000000000000000#24 : BitVec 32) = .ok .getmg := by decide

theorem test_decode_getng :
    decode (0b00000110#8 ++ 0b0000000000000000#16 ++ 0b01101001#8 : BitVec 32) = .ok (.getng 0b01101001) := by decide

/-- The order of R51: the opcode is tested before the must-be-zero bits (95_test_vectors.md 2.1). -/
theorem test_decode_opcode_first : decode 0x07000001 = .error .reservedOpcode := by decide

/-- Byte 0 is bits [7:0] (20_memory.md R33): SETMG 16384 = 0x04004000. -/
theorem test_decode_bytes :
    decodeBytes [0x00, 0x40, 0x00, 0x04, 0xAA] = .ok (.setmg 0x004000, [0xAA]) ∧
    decodeBytes [0x00, 0x40, 0x00] = .error .incomplete := by decide

/-- Lines of program P3 (95_test_vectors.md section 3). -/
theorem test_assemble_lines :
    Asm.assembleLine "C: SETMG -5         ; 0x04FFFFFB".toList = .ok [.command .portC 0x04FFFFFB] ∧
    Asm.assembleLine "C: .word 0x07000000 ; reserved opcode".toList = .ok [.command .portC 0x07000000] ∧
    Asm.assembleLine "C: GETNG WHITE      ; 0x06000000".toList = .ok [.command .portC 0x06000000] ∧
    Asm.assembleLine "S: PRODUCE".toList = .ok [.command .portS 0x01000000] := by decide +kernel

/-- The q suffix of R50: 0.5q is 16384, and what stands before it is decimal. -/
theorem test_assemble_q :
    Asm.assembleLine "SETMG 0.5q".toList = .ok [.command .portS 0x04004000] ∧
    Asm.assembleLine "SETMG -0.5q".toList = .ok [.command .portS 0x04FFC000] ∧
    Asm.assembleLine "SETMG 0x1q".toList = .error .badOperand := by decide +kernel

/-! ## The commands (95_test_vectors.md 2.1) -/

theorem test_nop : answerS (exec .nop State.reset) = some 0 := by decide

theorem test_setsel_unsupported_code : after (exec (.setsel 0xFF) State.reset) (·.sel == 0xFF) = true := by decide

theorem test_getsel : answerS (exec .getsel (start 0xFF 32768)) = some 0x000000FF := by decide

theorem test_setmg_clamps_below :
    after (exec (.setmg 0xFFFFFB) State.reset) (·.mg == 0) = true ∧
    after (exec (.setmg 0x800000) State.reset) (·.mg == 0) = true := by decide

theorem test_setmg_clamps_above :
    after (exec (.setmg 0x008001) State.reset) (·.mg == 32768) = true ∧
    after (exec (.setmg 0x7FFFFF) State.reset) (·.mg == 32768) = true := by decide

theorem test_getmg : answerS (exec .getmg State.reset) = some 0x00008000 := by decide

theorem test_getng :
    answerS (exec (.getng 0x00) State.reset) = some 0x00004666 ∧
    answerS (exec (.getng 0x09) State.reset) = some 0x00008000 ∧
    answerS (exec (.getng 0x42) State.reset) = some 0x00008000 := by decide

theorem test_produce_white :
    first 0x00 = some 190 ∧
    after (exec .produce State.reset) (·.gen.white.lfsr == 0x0DBF73CF) = true := by decide +kernel

theorem test_produce_at_zero_gain :
    answerS (exec .produce (start 0x00 0)) = some 128 ∧
    after (exec .produce (start 0x00 0)) (·.gen.white.lfsr == 0x0DBF73CF) = true := by decide +kernel

/-! ## The sub-blocks (95_test_vectors.md 2.2-2.10) -/

theorem test_phase :
    hzToInc Config.table 361234432 = 2147288864 ∧ hzToInc Config.table 722534400 = 0 ∧
    advance 0xF0000000 0x20000000 = 0x10000000 := by decide

theorem test_sinlut :
    sinlut 0x003FFFFF = 0 ∧ sinlut 0x0A377EE5 = 7962 ∧ sinlut 0x40000000 = 32767 ∧ sinlut 0x40400000 = 32766 ∧
    sinlut 0x80400000 = -201 ∧ sinlut 0xC0000000 = -32767 ∧ sinlut 0xFFFFFFFF = -201 := by decide

theorem test_lfsr_and_draw :
    lfsrStep 0x00000001 = 0x80200003 ∧ lfsrStep 0xFFFFFFFF = 0xFFDFFFFC ∧ lfsrStep 0x80200003 = 0xC0300002 ∧
    draw 0x00000001 = 0x8A0F3DB5 ∧ draw 0xFFFFFFFF = 0x79FAEB6C := by decide +kernel

theorem test_fir :
    fir H_BLUE (-1) 0 0 = -1 ∧ fir H_BLUE 12231 0 0 = 6115 ∧ fir H_VIOLET 32767 (-32768) 32767 = 43691 ∧
    fir H_VIOLET (-32768) 32767 (-32768) = -43692 ∧ fir H_VIOLET 3 0 0 = 1 := by decide

theorem test_modulator :
    ammul (-32767) 32767 = -32767 ∧ ammul 7962 19661 = 4777 ∧ amenv Config.table (-1) = 19660 ∧
    amenv Config.table 201 = 19740 := by decide

theorem test_howlcoef :
    (howlcoef 350609574).a1 = -1855687170 ∧ (howlcoef 350609574).a2 = 1051826682 ∧
    (howlcoef 584335024).a1 = -1388414256 := by decide

theorem test_softclip :
    softclip (-1) = 0 ∧ softclip 1000 = 999 ∧ softclip 32768 = 25486 ∧ softclip (-32768) = -25486 ∧
    softclip 98303 = 32767 ∧ softclip 200000 = 32768 := by decide

theorem test_gain :
    normalizeSample (-1) 18022 32768 = 128 ∧ normalizeSample (-170) 32768 32768 = 0 ∧
    normalizeSample 169 32768 32768 = 255 ∧ normalizeSample (-100) 32768 16384 = 78 := by decide

/-- GRANULAR just before its 113th sample from reset, the one that spawns the first grain (2.8): the LFSR before it is the
one whose draw is 0x23DD0020. -/
def beforeFirstGrain : State :=
  { start 0x09 32768 with gen := { Generators.reset with granular := { Generators.reset.granular with lfsr := 3161049747 } } }

/-- Program P4's end state. -/
theorem test_produce_first_grain :
    draw 3161049747 = 0x23DD0020 ∧ answerS (exec .produce beforeFirstGrain) = some 154 ∧
    after (exec .produce beforeFirstGrain) (fun t => t.gen.granular.lfsr == 0x53A07530 &&
      t.gen.granular.slot[0] == ⟨true, 475323542, 475323542, 12485, 32589, 910⟩) = true := by decide +kernel

/-! ## Witnesses: encoding -/

theorem witness_DecodeAndEncodeAgree : decode 0x0200000F = .ok (.setsel 0x0F) := by decide

theorem witness_DecoderFollowsMatchAndMask :
    decode 0x04FFFFFF = .ok (.setmg 0xFFFFFF) ∧
    (⟨"SETMG", .G24, 0x04000000, 0xFF000000⟩ : OpcodeRow) ∈ opcodeRows ∧
    OpcodeRow.accepts ⟨"SETMG", .G24, 0x04000000, 0xFF000000⟩ 0x04FFFFFF = true := by decide

theorem witness_AssemblerKeepsOperands :
    Asm.Stmt.assemble (.setsel 0) = .ok [0x02000000] ∧ Asm.Stmt.assemble (.setsel 255) = .ok [0x020000FF] ∧
    Asm.Stmt.assemble (.getng 255) = .ok [0x060000FF] ∧
    Asm.Stmt.assemble (.setmg (-8388608)) = .ok [0x04800000] ∧ Asm.Stmt.assemble (.setmg 8388607) = .ok [0x047FFFFF] ∧
    Asm.Stmt.assemble (.setsel (-1)) = .error .outOfRange ∧ Asm.Stmt.assemble (.getng 256) = .error .outOfRange ∧
    Asm.Stmt.assemble (.setmg (-8388609)) = .error .outOfRange ∧
    Asm.Stmt.assemble (.setmg 8388608) = .error .outOfRange := by decide

theorem witness_PseudoCommandsExpand :
    Asm.Stmt.assemble (.produce 1) = .ok [0x01000000] ∧ Asm.Stmt.assemble (.word 0) = .ok [0x00000000] ∧
    Asm.Stmt.assemble (.word 4294967295) = .ok [0xFFFFFFFF] := by decide

/-! ## Witnesses: the step -/

theorem witness_StepRunsTheDecodedCommand :
    decode 0x02000005 = .ok (.setsel 5) ∧
    after (step (fed [.command .portC 0x02000005])) (fun t => t.sel == 5 && t.portC.responses == [0]) = true ∧
    after (step (fed [.sameCycle 0x02000005 0x01000000])) (fun t => t.sel == 5 && t.portS.responses == [0] &&
      t.input == [.command .portC 0x01000000]) = true := by decide

theorem witness_FourBytesAreOneCommand :
    State.reset.portC.rx = [] ∧
    after (core.run 4 (fed (bytesAt .portC 0x02000005))) (fun t => t.sel == 5 && t.portC.rx == []) = true ∧
    after (core.run 3 (fed (bytesAt .portC 0x02000005))) (fun t => t.sel == 0 && t.portC.rx == [0x05, 0, 0]) = true := by
  decide

theorem witness_LoadedWordRunsNext :
    decodeTableWord 32 0x020000FF = some (.setsel 0xFF) ∧ decodeTableWord 0 0x020000FF = some .nop ∧
    after (step (State.reset.withFetchWord 32 0x020000FF)) (·.sel == 0xFF) = true := by decide

theorem witness_ErrorWordsAreAnsweredAndChangeNothing :
    decode 0x07000000 = .error .reservedOpcode ∧ decode 0x01000001 = .error .nonzeroMbz ∧
    after (step (fed [.command .portC 0x01000001])) (fun t => t.portC.responses == [0x80000002] &&
      t.gen == Generators.reset) = true := by decide

theorem witness_IdlePortsChangeNothing :
    State.reset.input = [] ∧ after (step State.reset) (· == State.reset) = true := by decide

theorem witness_PortsAreEqual :
    after (step (fed [.command .portS 0x04000007])) (·.mg == 7) = true ∧
    after (step (fed [.command .portC 0x04000007])) (·.mg == 7) = true := by decide

theorem witness_OnlyTheirCommandsChangeRegisters :
    after (step (fed [.command .portC 0x02000005])) (·.sel != State.reset.sel) = true ∧
    after (step (fed [.command .portC 0x04000007])) (·.mg != State.reset.mg) = true ∧
    after (step (fed [.command .portS 0x01000000])) (·.gen != State.reset.gen) = true := by decide +kernel

/-! ## Witnesses: invariants -/

/-- A state with an active grain, and a PRODUCE to come. -/
def grain : Slot := ⟨true, 0, 77913238, 19661, 32024, 1⟩

def withGrain : State :=
  { start 0x09 0 with
    gen := { Generators.reset with granular := ⟨Config.SEED_GRAN, Vector.replicate 8 grain⟩ }
    input := [.command .portS 0x01000000] }

theorem withGrain_legal : withGrain.Legal := by
  have hg : grain.Legal := by unfold Slot.Legal; decide
  refine ⟨⟨?_, ?_, ?_, ?_⟩, ?_, ?_⟩
  · unfold Generators.LfsrsNonzero; decide
  · unfold Brown.AccLegal; decide
  · unfold FeedbackHowl.LinesLegal; decide
  · intro S hS
    have : S = grain := by
      have h : withGrain.gen.granular.slot.toList = List.replicate 8 grain := by decide
      rw [h] at hS; exact List.eq_of_mem_replicate hS
    rw [this]; exact hg
  · unfold State.GainLegal; decide
  · unfold State.AdaptersLegal; decide

theorem witness_EveryStepKeepsTheStateLegal :
    withGrain.Legal ∧ after (step withGrain) (fun t => t.gen.granular.slot[7].act == false) = true :=
  ⟨withGrain_legal, by decide +kernel⟩

theorem witness_LfsrsNeverReachZero :
    withGrain.gen.LfsrsNonzero ∧ after (step withGrain) (fun _ => true) = true :=
  ⟨withGrain_legal.1.1, by decide +kernel⟩

/-! ## Witnesses: the commands -/

/-- IsFormatZ and IsFormatS8 at both their clauses, for each opcode they are claimed of. -/
theorem witness_formats :
    (opField 0x00000000 = 0x00 ∧ opField 0x00000001 = 0x00 ∧ opndField 0x00000001 ≠ 0) ∧
    (opField 0x01000000 = 0x01 ∧ opField 0x01800000 = 0x01 ∧ opndField 0x01800000 ≠ 0) ∧
    (opField 0x03000000 = 0x03 ∧ opField 0x03000001 = 0x03 ∧ opndField 0x03000001 ≠ 0) ∧
    (opField 0x05000000 = 0x05 ∧ opField 0x05800000 = 0x05 ∧ opndField 0x05800000 ≠ 0) ∧
    (mbzS8Field 0x020000FF = 0 ∧ mbzS8Field 0x02000100 ≠ 0) ∧ (mbzS8Field 0x060000FF = 0 ∧ mbzS8Field 0x06800000 ≠ 0) ∧
    opField 0x04FFFFFF = 0x04 := by decide

theorem witness_RepeatedCommands :
    Instr.setmg 0xFFFFFB ≠ .produce ∧
    after (exec (.setmg 0xFFFFFB) State.reset) (fun t => after (exec (.setmg 0xFFFFFB) t) (·.mg == 0)) = true := by
  decide

theorem witness_ProduceSeesEarlierWrites :
    after (exec (.setsel 0x05) State.reset) (fun t => answerS (exec .produce t) == some 158) = true ∧
    after (exec (.setmg 0xFFFFFB) State.reset) (fun t => answerS (exec .produce t) == some 128) = true := by
  decide +kernel

theorem witness_ProduceAlwaysAnswersASample :
    answerS (exec .produce (start 0x04 32768)) = some 86 := by decide +kernel

theorem witness_UnsupportedSelectorIsSilent :
    0x0A ≤ (start 0x0A 32768).sel.toNat ∧ first 0x0A = some 128 ∧ 0x0A ≤ (start 0xFF 32768).sel.toNat ∧
    first 0xFF = some 128 := by decide +kernel

theorem witness_ZeroMasterGainMutes : (start 0x09 0).mg = 0 ∧ answerS (exec .produce (start 0x09 0)) = some 128 := by
  decide +kernel

theorem witness_NormalizerIsSymmetric :
    |Int.tdiv ((127 : Int) * 32768 * 32768) (2 ^ 30)| ≤ 127 ∧ normalizeSample 127 32768 32768 = 255 ∧
    normalizeSample (-127) 32768 32768 = 1 ∧
    |(1073741823 : Int) * 1 * 1| < 2 ^ 30 ∧ normalizeSample 1073741823 1 1 = 128 := by decide

/-- WHITE with NG = 18022 and with half of it (95_test_vectors.md S3). -/
theorem witness_GainIsLinear :
    let half : Config := { Config.table with gainTable := [(.white, 9011)] }
    (18022 : Int) % 2 = 0 ∧ (romNg Config.table 0x00).toNat = 2 * (romNg half 0x00).toNat ∧
    sampleOf Config.table State.reset = 190 ∧ sampleOf half State.reset = 159 := by decide +kernel

theorem witness_RawSamplesAreBounded : withGrain.gen.Legal := withGrain_legal.1

theorem witness_ProduceReadsOnlyItsGenerator :
    agreeOn .white State.reset.gen withGrain.gen ∧ State.reset.gen ≠ withGrain.gen ∧
    State.reset.sel = Selector.white.code :=
  ⟨by unfold agreeOn; rfl, by decide, by decide⟩

theorem witness_GeneratorsAdvanceOnlyWhenSelected :
    let s := fed [.command .portS 0x01000000, .command .portC 0x02000001, .command .portS 0x01000000]
    NoReset s.input ∧ produced .white 3 s = 1 ∧ produced .pink 3 s = 1 ∧
    after (core.run 3 s) (fun t => t.gen.white.lfsr == 0x0DBF73CF && t.gen.pink.cnt == 1) = true :=
  ⟨by simp [NoReset, fed], by decide +kernel, by decide +kernel, by decide +kernel⟩

/-! ## Witnesses: the ten generators (the first sample of each from reset, 95_test_vectors.md 2.9) -/

theorem witness_ProduceWhite : (start 0x00 32768).sel = 0x00 ∧ first 0x00 = some 190 := by decide +kernel

/-- Every clause: counts 1 (i = 0) and 16384 (i = 14), and 32768 and 0, where no second draw follows. -/
theorem witness_ProducePink :
    first 0x01 = some 127 ∧ ((0 : BitVec 32) + 1).toNat % 2 ^ (0 + 1) = 2 ^ 0 ∧
    ((16383 : BitVec 32) + 1).toNat % 2 ^ (14 + 1) = 2 ^ 14 ∧ ((32767 : BitVec 32) + 1).toNat % 2 ^ 15 = 0 ∧
    ((0xFFFFFFFF : BitVec 32) + 1).toNat % 2 ^ 15 = 0 := by decide +kernel

/-- The schedule of 2.4 at the last count with a second draw and the first without. -/
theorem test_pink_schedule :
    (genPink ⟨1, 16383, Vector.replicate 16 0⟩).1.preg[15] = (draw (draw 1)).setWidth 16 ∧
    (genPink ⟨1, 16383, Vector.replicate 16 0⟩).1.lfsr = draw (draw 1) ∧
    (genPink ⟨1, 32767, Vector.replicate 16 0⟩).1.lfsr = draw 1 := by decide +kernel

theorem witness_ProduceBrown : (start 0x02 32768).sel = 0x02 ∧ first 0x02 = some 125 := by decide +kernel
theorem witness_ProduceBlue : (start 0x03 32768).sel = 0x03 ∧ first 0x03 = some 151 := by decide +kernel
theorem witness_ProduceViolet : (start 0x04 32768).sel = 0x04 ∧ first 0x04 = some 86 := by decide +kernel
theorem witness_ProduceSine : (start 0x05 32768).sel = 0x05 ∧ first 0x05 = some 158 := by decide +kernel
theorem witness_ProduceAmTremolo : (start 0x06 32768).sel = 0x06 ∧ first 0x06 = some 146 := by decide +kernel
theorem witness_ProduceRingMod : (start 0x07 32768).sel = 0x07 ∧ first 0x07 = some 133 := by decide +kernel
theorem witness_ProduceFeedbackHowl : (start 0x08 32768).sel = 0x08 ∧ first 0x08 = some 132 := by decide +kernel

/-- Both clauses of the spawner (spawned into slot 0; no spawn, as the first sample from reset) and both of a slot. -/
theorem witness_ProduceGranular :
    beforeFirstGrain.sel = 0x09 ∧ first 0x09 = some 128 ∧
    ((drawn beforeFirstGrain.gen.granular.lfsr).setWidth 16).toNat < 128 ∧
    beforeFirstGrain.gen.granular.slot[0].act = false ∧
    ¬ ((drawn Generators.reset.granular.lfsr).setWidth 16).toNat < 128 ∧ grain.act = true := by decide +kernel

/-! ## Witnesses: the sub-blocks -/

theorem witness_LfsrStepIsABijection : (1 : BitVec 32) ≠ 0 ∧ lfsrStep^[32] 1 = 0x8A0F3DB5 := by decide +kernel

theorem witness_FrequencyToIncrement : 0 < Config.table.fs ∧ hzToInc Config.table 6554 = 38958 := by decide

theorem witness_PhaseWrapsByOnePeriod :
    (0xFFFFFFFF : BitVec 32).toNat + (0 : BitVec 32).toNat < 2 ^ 32 ∧ advance 0xFFFFFFFF 0 = 0xFFFFFFFF ∧
    2 ^ 32 ≤ (0xFFFFFFFF : BitVec 32).toNat + (1 : BitVec 32).toNat ∧ advance 0xFFFFFFFF 1 = 0 := by decide

/-- One phase in each quadrant, at the ends of the index range. -/
theorem witness_SineLookup :
    (0x3FC00000 : BitVec 32).toNat / 2 ^ 22 % 256 = 255 ∧ sinlut 0x3FC00000 = 32766 ∧
    (0x40000000 : BitVec 32).toNat / 2 ^ 30 = 1 ∧ sinlut 0x40000000 = 32767 ∧
    (0x80000000 : BitVec 32).toNat / 2 ^ 30 = 2 ∧ sinlut 0x80000000 = 0 ∧
    (0xFFC00000 : BitVec 32).toNat / 2 ^ 30 = 3 ∧ sinlut 0xFFC00000 = -201 ∧
    (0x00000000 : BitVec 32).toNat / 2 ^ 22 = (0x003FFFFF : BitVec 32).toNat / 2 ^ 22 := by decide

theorem witness_EnvelopeStaysAboveItsFloor :
    let loud : Config := { Config.table with amDmin := 0 }
    let flat : Config := { Config.table with amDmin := 32767 }
    0 ≤ loud.amDmin ∧ flat.amDmin < 32768 ∧ amenv Config.table (sinlut 0xC0000000) = 6554 ∧
    amenv Config.table (sinlut 0x40000000) = 32767 := by decide

theorem witness_ResonatorIsStable :
    howlOmr 116869858 = 3671353 ∧ howlR 116869858 = 1070070471 ∧ howlOmr 584335024 = 18356319 ∧
    howlR 584335024 = 1055385505 := by decide

/-- Each piece at the values where they meet, and x ≤ y across them. -/
theorem witness_SoftclipIsOddAndMonotone :
    softclip 98303 = 32767 ∧ softclip (-98303) = -32767 ∧
    (98303 : Int) ≤ 98304 ∧ softclip 98304 = 32768 ∧ (-98304 : Int) ≤ -98303 ∧ softclip (-98304) = -32768 := by decide

theorem witness_GrainsEndWithinTheirLifetime :
    grain.act = true ∧ 1 ≤ grain.rem.toNat ∧ (stepSlot grain).1.act = false := by decide

/-! ## Witnesses: the observation of a run -/

/-- GETMG at port C for ever, each with a NOP accepted at port S in the same cycle: port C is presented a word by every
input, and its responses so far are reset's MG, once for each (95_test_vectors.md 2.1). -/
theorem witness_InfiniteRunsAreObserved :
    let es : Nat → Event := fun _ => .sameCycle 0x00000000 0x05000000
    (∀ n, ∃ m, n ≤ m ∧ (es m).hasWordAt .portC = true) ∧
    State.reset.observation .portC es 3 = [0x00008000, 0x00008000, 0x00008000] :=
  ⟨fun n => ⟨n, le_rfl, rfl⟩, by decide⟩

end Sys2Proof.Tests
end

section
/-!
SUPPORT. What a step can do to each part of the state: SEL, MG, the generators, and the byte adapters.
-/

namespace Sys2Proof.Machine

open Sys2Proof.Claims

/-! ## The registers across a command -/

theorem exec_sel_cases {i : Instr} {s t : State} (h : exec i s = .next t) :
    t.sel = s.sel ∨ ∃ v, i = .setsel v ∧ t.sel = v := by
  have hsel := (exec_registers h).1
  cases i with
  | setsel v => exact .inr ⟨v, rfl, hsel⟩
  | nop | produce | getsel | setmg | getmg | getng => exact .inl hsel

theorem exec_mg_cases {i : Instr} {s t : State} (h : exec i s = .next t) :
    t.mg = s.mg ∨ ∃ v, i = .setmg v ∧ t.mg = BitVec.ofInt 16 (clampMG (gainOperand v)) := by
  obtain ⟨-, hmg, -⟩ := exec_registers h
  cases i with
  | setmg v => exact .inr ⟨v, rfl, hmg⟩
  | nop | produce | setsel | getsel | getmg | getng => exact .inl hmg

theorem exec_gen_cases {i : Instr} {s t : State} (h : exec i s = .next t) :
    t.gen = s.gen ∨ i = .produce ∧ t.gen = (generate Config.table s.sel s.gen).1 := by
  obtain ⟨-, -, hgen⟩ := exec_registers h
  cases i with
  | produce => exact .inr ⟨rfl, hgen⟩
  | nop | setsel | getsel | setmg | getmg | getng => exact .inl hgen

/-! ## The registers across a step -/

/-- t holds the registers and the generators that s holds. -/
def State.SameRegisters (s t : State) : Prop := t.sel = s.sel ∧ t.mg = s.mg ∧ t.gen = s.gen

/-- The next input is a reset, and t is the state after it. -/
def State.ResetsTo (s t : State) : Prop := ∃ a b rest, s.input = .reset a b :: rest ∧ t = s.assertReset rest

theorem fetch_run_sameRegisters {s u : State} {w : Word} (h : s.fetch = .run w u) : s.SameRegisters u := by
  obtain ⟨hsel, hmg, hgen, -⟩ := fetch_run h
  exact ⟨hsel, hmg, hgen⟩

/-- Everything a step can do to the registers: execute a command on them as they stand, keep them, or reset them. -/
theorem step_registers_cases {s t : State} (h : step s = .next t) :
    (∃ i u, Runs s i ∧ s.SameRegisters u ∧ exec i u = .next t) ∨ s.SameRegisters t ∨ s.ResetsTo t := by
  rcases step_cases h with ⟨w, u, i, hf, hd, he⟩ | ⟨w, u, e, hf, -, rfl⟩ | hq
  · exact .inl ⟨i, u, ⟨w, u, hf, hd⟩, fetch_run_sameRegisters hf, he⟩
  · have hu := fetch_run_sameRegisters hf
    exact .inr (.inl (by simpa [State.SameRegisters, State.raiseCmdError] using hu))
  · rcases fetch_quiet hq with ⟨-, rfl⟩ | ⟨p, b, rest, -, rfl, -⟩ | hreset
    · exact .inr (.inl ⟨rfl, rfl, rfl⟩)
    · exact .inr (.inl (by simp [State.SameRegisters]))
    · exact .inr (.inr hreset)

theorem step_sel_cases {s t : State} (h : step s = .next t) :
    t.sel = s.sel ∨ (∃ v, Runs s (.setsel v) ∧ t.sel = v) ∨ s.ResetsTo t := by
  rcases step_registers_cases h with ⟨i, u, hr, ⟨hsel, -, -⟩, he⟩ | ⟨hsel, -, -⟩ | hreset
  · rcases exec_sel_cases he with ht | ⟨v, rfl, ht⟩
    · exact .inl (ht.trans hsel)
    · exact .inr (.inl ⟨v, hr, ht⟩)
  · exact .inl hsel
  · exact .inr (.inr hreset)

theorem step_mg_cases {s t : State} (h : step s = .next t) :
    t.mg = s.mg ∨ (∃ v, Runs s (.setmg v) ∧ t.mg = BitVec.ofInt 16 (clampMG (gainOperand v))) ∨ s.ResetsTo t := by
  rcases step_registers_cases h with ⟨i, u, hr, ⟨-, hmg, -⟩, he⟩ | ⟨-, hmg, -⟩ | hreset
  · rcases exec_mg_cases he with ht | ⟨v, rfl, ht⟩
    · exact .inl (ht.trans hmg)
    · exact .inr (.inl ⟨v, hr, ht⟩)
  · exact .inl hmg
  · exact .inr (.inr hreset)

theorem step_gen_cases {s t : State} (h : step s = .next t) :
    t.gen = s.gen ∨ (Runs s .produce ∧ t.gen = (generate Config.table s.sel s.gen).1) ∨ s.ResetsTo t := by
  rcases step_registers_cases h with ⟨i, u, hr, ⟨hsel, -, hgen⟩, he⟩ | ⟨-, -, hgen⟩ | hreset
  · rcases exec_gen_cases he with ht | ⟨rfl, ht⟩
    · exact .inl (ht.trans hgen)
    · exact .inr (.inl ⟨hr, by rw [ht, hsel, hgen]⟩)
  · exact .inl hgen
  · exact .inr (.inr hreset)

theorem State.ResetsTo.input_eq {s t : State} (h : s.ResetsTo t) : ∃ a b rest, s.input = .reset a b :: rest := by
  obtain ⟨a, b, rest, hin, -⟩ := h
  exact ⟨a, b, rest, hin⟩

theorem State.ResetsTo.gen_eq {s t : State} (h : s.ResetsTo t) : t.gen = Generators.reset := by
  obtain ⟨a, b, rest, -, rfl⟩ := h
  exact s.assertReset_gen rest

theorem State.ResetsTo.mg_eq {s t : State} (h : s.ResetsTo t) : t.mg = Config.RESET_MG := by
  obtain ⟨a, b, rest, -, rfl⟩ := h
  exact s.assertReset_mg rest

/-! ## The byte adapters across a step -/

theorem exec_port_rx {i : Instr} {s t : State} (h : exec i s = .next t) (p : PortId) :
    (t.port p).rx = (s.port p).rx := by
  obtain ⟨u, r, he, -, -, hS, hC⟩ := exec_answers i s
  rw [h] at he
  cases he
  rw [State.respond_port_rx]
  cases p with
  | portS => exact congrArg Port.rx hS
  | portC => exact congrArg Port.rx hC

/-- Everything a step can do to a byte adapter: keep it, empty it, or take a byte that makes no whole word
(20_memory.md R33, R34). -/
theorem step_rx_cases {s t : State} (h : step s = .next t) (p : PortId) :
    (t.port p).rx = (s.port p).rx ∨ (t.port p).rx = [] ∨
    ∃ b, (t.port p).rx = (s.port p).rx ++ [b] ∧ (s.port p).rx.length ≠ 3 := by
  have hrun : ∀ {w u}, s.fetch = .run w u → (u.port p).rx = (s.port p).rx ∨ (u.port p).rx = [] := fun hf => by
    obtain ⟨-, -, -, hports⟩ := fetch_run hf
    exact (hports p).2
  rcases step_cases h with ⟨w, u, i, hf, -, he⟩ | ⟨w, u, e, hf, -, rfl⟩ | hq
  · rw [exec_port_rx he, ← or_assoc]
    exact .inl (hrun hf)
  · rw [State.raiseCmdError, State.respond_port_rx, ← or_assoc]
    exact .inl (hrun hf)
  · rcases fetch_quiet hq with ⟨-, rfl⟩ | ⟨q, b, rest, -, rfl, hlen⟩ | ⟨a, b, rest, -, rfl⟩
    · exact .inl rfl
    · rw [State.setInput_port]
      by_cases hp : p = q
      · subst hp
        exact .inr (.inr ⟨b, by rw [State.setPort_port_self], hlen⟩)
      · exact .inl (by rw [s.setPort_port_of_ne _ hp])
    · exact .inr (.inl (s.assertReset_port_rx rest p))

end Sys2Proof.Machine
end

section
/-!
SUPPORT. The reset state is legal, and the commands that write MG and the generators keep them legal.
-/

namespace Sys2Proof.Machine

/-! ## Reset -/

theorem reset_lfsrsNonzero : Generators.reset.LfsrsNonzero := by
  unfold Generators.LfsrsNonzero
  decide

theorem reset_slotsLegal : Generators.reset.granular.SlotsLegal := by
  have hslot : Slot.reset.Legal := by unfold Slot.Legal; decide
  intro S hS
  have hmem : S ∈ List.replicate 8 Slot.reset := by simpa [Generators.reset] using hS
  rw [List.eq_of_mem_replicate hmem]
  exact hslot

theorem reset_generators_legal : Generators.reset.Legal :=
  ⟨reset_lfsrsNonzero, by unfold Brown.AccLegal; decide, by unfold FeedbackHowl.LinesLegal; decide, reset_slotsLegal⟩

theorem reset_gain_le : Config.RESET_MG.toNat ≤ 32768 := by decide

/-! ## SETMG -/

theorem ofInt_clampMG_le (gv : Int) : (BitVec.ofInt 16 (clampMG gv)).toNat ≤ 32768 := by
  obtain ⟨h0, h1⟩ : 0 ≤ clampMG gv ∧ clampMG gv ≤ 32768 := clamp_bounds gv (by decide)
  have h := uint_ofInt_of_bounds (n := 16) h0 (by omega)
  unfold uint at h
  omega

/-! ## PRODUCE -/

/-- Only the generator that runs draws from its register, and a draw never gives 0 (R27, R70). -/
theorem runGenerator_lfsrsNonzero (c : Config) {g : Generators} (x : Selector) (h : g.LfsrsNonzero) :
    (runGenerator c g x).1.LfsrsNonzero := by
  obtain ⟨hwhite, hpink, hbrown, hblue, hviolet, hsine, hhowl, hgran⟩ := h
  cases x with
  | white => exact ⟨draw_ne_zero hwhite, hpink, hbrown, hblue, hviolet, hsine, hhowl, hgran⟩
  | pink => exact ⟨hwhite, genPink_lfsr_ne_zero hpink, hbrown, hblue, hviolet, hsine, hhowl, hgran⟩
  | brown => exact ⟨hwhite, hpink, draw_ne_zero hbrown, hblue, hviolet, hsine, hhowl, hgran⟩
  | blue => exact ⟨hwhite, hpink, hbrown, draw_ne_zero hblue, hviolet, hsine, hhowl, hgran⟩
  | violet => exact ⟨hwhite, hpink, hbrown, hblue, draw_ne_zero hviolet, hsine, hhowl, hgran⟩
  | sine => exact ⟨hwhite, hpink, hbrown, hblue, hviolet, draw_ne_zero hsine, hhowl, hgran⟩
  | amTremolo | ringMod => exact ⟨hwhite, hpink, hbrown, hblue, hviolet, hsine, hhowl, hgran⟩
  | feedbackHowl => exact ⟨hwhite, hpink, hbrown, hblue, hviolet, hsine, draw_ne_zero hhowl, hgran⟩
  | granular =>
    have hspawn : (genGran c g.granular).1.lfsr ≠ 0 := by
      rw [genGran_lfsr]
      exact spawn_lfsr_ne_zero c hgran
    exact ⟨hwhite, hpink, hbrown, hblue, hviolet, hsine, hhowl, hspawn⟩

theorem runGenerator_legal (c : Config) {g : Generators} (x : Selector) (h : g.Legal) :
    (runGenerator c g x).1.Legal := by
  obtain ⟨hlfsr, hacc, hlines, hslots⟩ := h
  refine ⟨runGenerator_lfsrsNonzero c x hlfsr, ?_, ?_, ?_⟩
  · rw [runGenerator_gen_brown]
    split
    · exact genBrown_accLegal g.brown
    · exact hacc
  · rw [runGenerator_gen_feedbackHowl]
    split
    · exact genHowl_linesLegal c hlines
    · exact hlines
  · rw [runGenerator_gen_granular]
    split
    · exact genGran_slotsLegal c hslots
    · exact hslots

/-- What every generator keeps when it runs, a PRODUCE of any selector code keeps: an unsupported one changes nothing
(48_algorithm_multiplexer.md R93). -/
theorem generate_preserves {P : Generators → Prop} {c : Config} {g : Generators}
    (hrun : ∀ x, P (runGenerator c g x).1) (h : P g) (code : BitVec 8) : P (generate c code g).1 := by
  cases hx : Selector.ofCode code with
  | none => rwa [generate_unsupported g hx]
  | some x =>
    have hgen : generate c code g = runGenerator c g x := by simp [generate, hx]
    rw [hgen]
    exact hrun x

/-- One step, for a property of the generators: reset gives it, and every PRODUCE keeps it. -/
theorem step_preserves_gen {P : Generators → Prop} {s t : State} (hreset : P Generators.reset)
    (hrun : ∀ x, P (runGenerator Config.table s.gen x).1) (h : P s.gen) (hstep : step s = .next t) : P t.gen := by
  rcases step_gen_cases hstep with hsame | ⟨-, hgen⟩ | hr
  · rwa [hsame]
  · rw [hgen]
    exact generate_preserves hrun h s.sel
  · rwa [hr.gen_eq]

/-! ## Each part of a legal state across a step -/

theorem adaptersLegal_iff (s : State) : s.AdaptersLegal ↔ ∀ p, (s.port p).rx.length < 4 := by
  constructor
  · rintro ⟨hS, hC⟩ (_ | _)
    · exact hS
    · exact hC
  · exact fun h => ⟨h .portS, h .portC⟩

theorem step_gen_legal {s t : State} (h : s.gen.Legal) (hstep : step s = .next t) : t.gen.Legal :=
  step_preserves_gen reset_generators_legal (fun x => runGenerator_legal _ x h) h hstep

theorem step_gainLegal {s t : State} (h : s.GainLegal) (hstep : step s = .next t) : t.GainLegal := by
  unfold State.GainLegal at *
  rcases step_mg_cases hstep with hsame | ⟨v, -, hmg⟩ | hr
  · rwa [hsame]
  · rw [hmg]
    exact ofInt_clampMG_le _
  · rw [hr.mg_eq]
    exact reset_gain_le

theorem step_adaptersLegal {s t : State} (h : s.AdaptersLegal) (hstep : step s = .next t) : t.AdaptersLegal := by
  rw [adaptersLegal_iff] at *
  intro p
  have hlt := h p
  rcases step_rx_cases hstep p with hrx | hrx | ⟨b, hrx, hne⟩ <;> rw [hrx]
  · exact hlt
  · simp
  · rw [List.length_append, List.length_singleton]
    omega

end Sys2Proof.Machine
end

section
/-!
PROOFS. The obligations of 10_state.md.
-/

namespace Sys2Proof.Proofs

open Sys2Proof.Machine

/-- Settles O18, each field of R113's table against the range of the summary table. -/
theorem resetStateIsLegal : Obligations.ResetStateIsLegal :=
  ⟨reset_generators_legal, reset_gain_le, by unfold State.AdaptersLegal; decide⟩

/-- Settles O20, by the step's three effects on the generators: none, a sample of one of them, and reset. -/
theorem lfsrsNeverReachZero : Obligations.LfsrsNeverReachZero :=
  ⟨reset_lfsrsNonzero, fun _ _ h hstep =>
    step_preserves_gen reset_lfsrsNonzero (fun x => runGenerator_lfsrsNonzero _ x h) h hstep⟩

/-- Settles O17, by the inversion of a step for each register. -/
theorem onlyTheirCommandsChangeRegisters : Obligations.OnlyTheirCommandsChangeRegisters := by
  intro s t hstep
  refine ⟨fun hne => ?_, fun hne => ?_, fun hne => ?_⟩
  · rcases (step_sel_cases hstep).resolve_left hne with hset | hr
    · exact .inl hset
    · exact .inr hr.input_eq
  · rcases (step_mg_cases hstep).resolve_left hne with ⟨v, hset, -⟩ | hr
    · exact .inl ⟨v, hset⟩
    · exact .inr hr.input_eq
  · rcases (step_gen_cases hstep).resolve_left hne with ⟨hproduce, -⟩ | hr
    · exact .inl hproduce
    · exact .inr hr.input_eq

/-- Settles O19: a step keeps each of the three parts of `State.Legal` by itself. -/
theorem everyStepKeepsTheStateLegal : Obligations.EveryStepKeepsTheStateLegal := by
  rintro s t ⟨hgen, hgain, hadapters⟩ hstep
  exact ⟨step_gen_legal hgen hstep, step_gainLegal hgain hstep, step_adaptersLegal hadapters hstep⟩

end Sys2Proof.Proofs
end

section
/-!
SUPPORT. What two executions in a row do: the responses they add, a command executed again, and what a PRODUCE answers.
-/

namespace Sys2Proof.Machine

open Sys2Proof.Claims

/-! ## One answer, and two in a row -/

/-- A command that has left the inputs and the ports alone answers r. -/
theorem answered_respond {s u : State} (r : Word) (hinput : u.input = s.input) (hcur : u.cur = s.cur)
    (hport : ∀ p, u.port p = s.port p) : Answered s (u.respond r) r := by
  refine ⟨by simp [hinput], by simp [hcur], fun p => by simp [hport], ?_, fun p hp => ?_⟩
  · rw [← hcur, u.respond_port_cur, hport, Port.answer_responses]
  · rw [u.respond_port_of_ne r (by rw [hcur]; exact hp), hport]

theorem answered_respond_self (r : Word) (s : State) : Answered s (s.respond r) r :=
  answered_respond r rfl rfl fun _ => rfl

/-- Both answers, in order, when one command executes after another at the same port. -/
theorem answered_responses_append {s t u : State} {a b : Word} (h : Answered s t a) (k : Answered t u b) :
    (u.port s.cur).responses = (s.port s.cur).responses ++ [a, b] := by
  obtain ⟨-, hcur, -, ha, -⟩ := h
  obtain ⟨-, -, -, hb, -⟩ := k
  rw [← hcur, hb, hcur, ha, List.append_assoc, List.singleton_append]

theorem answered_setsel (v : BitVec 8) (s : State) : Answered s ((s.setSel v).respond 0) 0 :=
  answered_respond 0 rfl rfl (s.setSel_port v)

theorem answered_setmg (m : BitVec 16) (s : State) : Answered s ((s.setMg m).respond 0) 0 :=
  answered_respond 0 rfl rfl (s.setMg_port m)

/-! ## A command executed again -/

theorem State.setSel_eq_self {s : State} {v : BitVec 8} (h : s.sel = v) : s.setSel v = s := by
  subst h; rfl

theorem State.setMg_eq_self {s : State} {m : BitVec 16} (h : s.mg = m) : s.setMg m = s := by
  subst h; rfl

/-- A command that runs no generator, executed where it has just been executed, writes what is already there: all it
does is to give its answer again (20_memory.md R36). -/
theorem exec_again {i : Instr} {s t : State} (hi : i ≠ .produce) (h : exec i s = .next t) :
    ∃ r, Answered s t r ∧ exec i t = .next (t.respond r) := by
  cases i with
  | produce => exact absurd rfl hi
  | setsel v =>
    cases h
    refine ⟨0, answered_setsel v s, ?_⟩
    simp only [exec, execSetsel]
    rw [State.setSel_eq_self (by simp)]
  | setmg v =>
    cases h
    refine ⟨0, answered_setmg _ s, ?_⟩
    simp only [exec, execSetmg]
    rw [State.setMg_eq_self (by simp)]
  | nop => cases h; exact ⟨0, answered_respond_self 0 s, rfl⟩
  | getsel => cases h; exact ⟨_, answered_respond_self _ s, by simp [exec, execGetsel]⟩
  | getmg => cases h; exact ⟨_, answered_respond_self _ s, by simp [exec, execGetmg]⟩
  | getng v => cases h; exact ⟨_, answered_respond_self _ s, rfl⟩

/-! ## What a PRODUCE answers -/

/-- The output normalizer as 49_gain_and_output_normalizer.md R98 writes it. -/
theorem normalizeSample_eq_outSample (raw g m : Int) : normalizeSample raw g m = outSample raw g m := by
  unfold normalizeSample gainProduct tdiv outSample
  rw [clamp_eq_max_min _ (by decide)]

theorem outSample_bounds (raw g m : Int) : 0 ≤ outSample raw g m ∧ outSample raw g m ≤ 255 := by
  unfold outSample
  omega

theorem uint_romNg (v : BitVec 8) : uint (romNg Config.table v) = ngOf v := by
  revert v
  decide

theorem wrap32_sampleOf_toNat (s : State) :
    ((wrap32 (sampleOf Config.table s)).toNat : Int) =
      outSample (generate Config.table s.sel s.gen).2 (ngOf s.sel) s.mg.toNat := by
  have hsample : sampleOf Config.table s =
      outSample (generate Config.table s.sel s.gen).2 (ngOf s.sel) s.mg.toNat := by
    unfold sampleOf
    rw [normalizeSample_eq_outSample, uint_romNg, uint]
  obtain ⟨h0, h1⟩ := outSample_bounds (generate Config.table s.sel s.gen).2 (ngOf s.sel) s.mg.toNat
  rw [hsample]
  exact uint_ofInt_of_bounds h0 (by omega)

/-- What a PRODUCE does in every state (40_commands.md R53). -/
theorem exec_produce_produces (s : State) :
    Produces s (generate Config.table s.sel s.gen).1 (generate Config.table s.sel s.gen).2 :=
  ⟨_, _, rfl, by simp [produceWith], by simp [produceWith], by simp [produceWith],
    answered_respond _ rfl rfl (s.setGen_port _), wrap32_sampleOf_toNat s⟩

/-- A PRODUCE right after a command that answered a: it works on the registers and the generators as that command left
them (20_memory.md R40). -/
theorem exec_produce_after {s t u : State} {a : Word} (ht : Answered s t a) (hu : exec .produce t = .next u) :
    u.gen = (generate Config.table t.sel t.gen).1 ∧
    ∃ r : Word, (u.port s.cur).responses = (s.port s.cur).responses ++ [a, r] ∧
      (r.toNat : Int) = outSample (generate Config.table t.sel t.gen).2 (ngOf t.sel) t.mg.toNat := by
  obtain ⟨u', r, he, -, -, hgen, hr, hsample⟩ := exec_produce_produces t
  obtain rfl := Host.Outcome.next.inj (he.symm.trans hu)
  exact ⟨hgen, r, answered_responses_append ht hr, hsample⟩

/-! ## SETMG -/

theorem gainOperand_eq_toInt (v : BitVec 24) : gainOperand v = v.toInt := by
  simp [gainOperand, sext]

/-- The value SETMG writes (40_commands.md R57). -/
theorem ofInt_clampMG_toNat (v : BitVec 24) :
    ((BitVec.ofInt 16 (clampMG (gainOperand v))).toNat : Int) = max 0 (min 32768 v.toInt) := by
  unfold clampMG
  rw [clamp_eq_max_min _ (by decide), gainOperand_eq_toInt]
  exact uint_ofInt_of_bounds (by omega) (by omega)

end Sys2Proof.Machine
end

section
/-!
SUPPORT. Runs over the inputs of 20_memory.md: a word carried as bytes, two words of one cycle, and lists of inputs.
-/

namespace Sys2Proof.Machine

open Sys2Proof.Claims

/-! ## Runs by their first step -/

theorem run_one (s : State) : core.run 1 s = step s := by
  have hr : ∀ (M : Host.Core) (u : M.State), M.run 1 u = M.step u := by
    intro M u
    simp only [Host.Core.run]
    cases M.step u <;> rfl
  exact hr core s

/-- A run depends on its first state through the first step alone. -/
theorem run_succ_congr {s t : State} (n : Nat) (h : step s = step t) : core.run (n + 1) s = core.run (n + 1) t := by
  have hr : ∀ (M : Host.Core) (u v : M.State), M.step u = M.step v → M.run (n + 1) u = M.run (n + 1) v := by
    intro M u v huv
    simp only [Host.Core.run, huv]
  exact hr core s t h

/-- Of two words accepted in the same cycle the port S word runs, and the port C word is the next input (R39). -/
theorem step_sameCycle (s : State) (ws wc : Word) (es : List Event) :
    step (s.setInput (.sameCycle ws wc :: es)) =
      step (s.setInput (.command .portS ws :: .command .portC wc :: es)) := rfl

/-! ## Bytes -/

theorem wordOfBytes_extract (w : Word) :
    wordOfBytes (w.extractLsb' 0 8) (w.extractLsb' 8 8) (w.extractLsb' 16 8) (w.extractLsb' 24 8) = w := by
  apply BitVec.eq_of_toNat_eq
  have := w.isLt
  simp only [wordOfBytes, toNat_append_eq, BitVec.extractLsb'_toNat, Nat.shiftRight_eq_div_pow]
  omega

/-- The state s, but for the bytes bs that the adapter in front of port p holds of a word not yet whole. -/
def State.holding (s : State) (p : PortId) (bs : List Byte) : State := s.setPort p ⟨bs, (s.port p).responses⟩

section Holding

variable (s : State) (p : PortId) (bs cs : List Byte)

@[simp] theorem State.holding_sel : (s.holding p bs).sel = s.sel := by simp [State.holding]
@[simp] theorem State.holding_mg : (s.holding p bs).mg = s.mg := by simp [State.holding]
@[simp] theorem State.holding_gen : (s.holding p bs).gen = s.gen := by simp [State.holding]
@[simp] theorem State.holding_port_rx : ((s.holding p bs).port p).rx = bs := by simp [State.holding]
@[simp] theorem State.holding_port_responses (q : PortId) :
    ((s.holding p bs).port q).responses = (s.port q).responses := by
  by_cases h : q = p
  · subst h; simp [State.holding]
  · rw [State.holding, s.setPort_port_of_ne _ h]

@[simp] theorem State.holding_holding : (s.holding p bs).holding p cs = s.holding p cs := by
  cases p <;> rfl

theorem State.holding_eq_self {s : State} {p : PortId} {bs : List Byte} (h : (s.port p).rx = bs) :
    s.holding p bs = s := by
  subst h
  cases p <;> rfl

end Holding

/-- A byte that makes no whole word waits at the adapter (R34). -/
theorem step_byte_waits {s : State} {p : PortId} (b : Byte) (es : List Event) (h : (s.port p).rx.length < 3) :
    step (s.setInput (.byte p b :: es)) = .next ((s.holding p ((s.port p).rx ++ [b])).setInput es) := by
  have hwait : (s.setInput (.byte p b :: es)).fetch = .quiet ((s.holding p ((s.port p).rx ++ [b])).setInput es) := by
    simp only [State.fetch, State.setInput_input, State.receiveByte, State.setInput_port]
    split
    · rename_i hfour
      have hlen : (s.port p).rx.length + 1 = 4 := by simpa using congrArg List.length hfour
      omega
    · rw [setPort_setInput]
      rfl
  rw [step, hwait]

/-- The fourth byte makes the word whole, and the step is the word's own (R33). -/
theorem step_byte_whole {s : State} {p : PortId} {b0 b1 b2 : Byte} (b3 : Byte) (es : List Event)
    (h : (s.port p).rx = [b0, b1, b2]) :
    step (s.setInput (.byte p b3 :: es)) =
      step ((s.holding p []).setInput (.command p (wordOfBytes b0 b1 b2 b3) :: es)) := by
  have hwhole : (s.setInput (.byte p b3 :: es)).fetch =
      ((s.holding p []).setInput (.command p (wordOfBytes b0 b1 b2 b3) :: es)).fetch := by
    simp only [State.fetch, State.setInput_input, State.receiveByte, State.setInput_port, h]
    rw [setPort_setInput]
    rfl
  rw [step, hwhole, step]

/-- Bytes that make no whole word are taken one by one, and all they do is to wait at the adapter (R34). -/
theorem run_bytes_wait {s : State} {p : PortId} (bs : List Byte) (es : List Event)
    (h : (s.port p).rx.length + bs.length ≤ 3) :
    core.run bs.length (s.setInput (bs.map (.byte p) ++ es)) =
      .next ((s.holding p ((s.port p).rx ++ bs)).setInput es) := by
  induction bs generalizing s with
  | nil => rw [List.append_nil, State.holding_eq_self rfl]; rfl
  | cons b bs ih =>
    rw [List.length_cons] at h
    have hstep := step_byte_waits (s := s) b (bs.map (.byte p) ++ es) (show (s.port p).rx.length < 3 by omega)
    have hroom : ((s.holding p ((s.port p).rx ++ [b])).port p).rx.length + bs.length ≤ 3 := by
      rw [State.holding_port_rx, List.length_append, List.length_singleton]
      omega
    rw [List.length_cons, List.map_cons, List.cons_append, run_succ_of_next _ hstep, ih hroom]
    simp

/-- The first three bytes of a word wait at an empty adapter. -/
theorem run_three_bytes {s : State} {p : PortId} (w : Word) (es : List Event) (h : (s.port p).rx = []) :
    core.run 3 (s.setInput (bytesAt p w ++ es)) =
      .next ((s.holding p [w.extractLsb' 0 8, w.extractLsb' 8 8, w.extractLsb' 16 8]).setInput
        (.byte p (w.extractLsb' 24 8) :: es)) := by
  have hrun := run_bytes_wait (s := s) (p := p) [w.extractLsb' 0 8, w.extractLsb' 8 8, w.extractLsb' 16 8]
    (.byte p (w.extractLsb' 24 8) :: es) (by simp [h])
  rwa [h] at hrun

/-- Four bytes at an empty adapter come to the step of their word (R33). -/
theorem run_four_bytes {s : State} {p : PortId} (w : Word) (es : List Event) (h : (s.port p).rx = []) :
    core.run 4 (s.setInput (bytesAt p w ++ es)) = step (s.setInput (.command p w :: es)) := by
  rw [run_add_of_next 3 1 (run_three_bytes w es h), run_one, step_byte_whole _ es (State.holding_port_rx ..),
    wordOfBytes_extract, State.holding_holding, State.holding_eq_self h]

/-! ## Lists of inputs -/

/-- Any inputs are taken, in at most two steps each, whatever comes after them. -/
theorem run_inputs (s : State) (es : List Event) :
    ∃ (c : Nat) (t : State), c ≤ 2 * es.length ∧ ∀ fs, core.run c (s.setInput (es ++ fs)) = .next (t.setInput fs) := by
  induction es generalizing s with
  | nil => exact ⟨0, s, le_rfl, fun _ => rfl⟩
  | cons e es ih =>
    obtain ⟨c, u, hc, hu, -⟩ := run_event s e
    obtain ⟨d, t, hd, ht⟩ := ih u
    refine ⟨c + d, t, by rw [List.length_cons]; omega, fun fs => ?_⟩
    rw [List.cons_append, run_add_of_next c d (hu _), ht]

/-- A run that has come to idle ports is there after any more steps too. -/
theorem run_of_le_of_idle {s t : State} {m n : Nat} (hmn : m ≤ n) (h : core.run m s = .next t) (ht : t.input = []) :
    core.run n s = .next t := by
  obtain ⟨k, rfl⟩ := Nat.exists_eq_add_of_le hmn
  rw [run_add_of_next m k h, run_idle ht]

/-- Presenting inputs is running any number of steps that is enough for them: the rest find idle ports. -/
theorem run_eq_present (s : State) (es : List Event) {n : Nat} (hn : 2 * es.length ≤ n) :
    core.run n (s.setInput es) = s.present es := by
  obtain ⟨c, t, hc, ht⟩ := run_inputs s es
  have hidle := ht []
  rw [List.append_nil] at hidle
  rw [State.present, run_of_le_of_idle (hc.trans hn) hidle rfl, run_of_le_of_idle hc hidle rfl]

/-- Inputs leave one state with idle ports, and inputs after them are presented to that state (20_memory.md R39). -/
theorem present_append (s : State) (es : List Event) :
    ∃ t, s.present es = .next t ∧ t.input = [] ∧ ∀ fs, s.present (es ++ fs) = t.present fs := by
  obtain ⟨c, t, hc, ht⟩ := run_inputs s es
  have hidle := ht []
  rw [List.append_nil] at hidle
  refine ⟨t.setInput [], run_of_le_of_idle hc hidle rfl, rfl, fun fs => ?_⟩
  obtain ⟨k, hk, hfs⟩ : ∃ k, 2 * (es ++ fs).length = c + k ∧ 2 * fs.length ≤ k :=
    ⟨2 * (es ++ fs).length - c, by rw [List.length_append]; omega, by rw [List.length_append]; omega⟩
  rw [State.present, hk, run_add_of_next c k (ht fs)]
  exact run_eq_present (t.setInput []) fs hfs

end Sys2Proof.Machine
end

section
/-!
PROOFS. The obligations of 20_memory.md.
-/

namespace Sys2Proof.Proofs

open Sys2Proof.Machine

/-- Settles O8: the first step is the same, and so is the state it leaves. -/
theorem sameCycleRunsPortSFirst : Obligations.SameCycleRunsPortSFirst :=
  fun s ws wc rest => run_succ_congr 1 (step_sameCycle s ws wc rest)

/-- Settles O9: three bytes wait at the adapter, and the fourth makes the step the word's own. -/
theorem fourBytesAreOneCommand : Obligations.FourBytesAreOneCommand := by
  intro s p w rest hrx
  refine ⟨run_four_bytes w rest hrx, fun t ht => ?_⟩
  obtain rfl := Host.Outcome.next.inj ((run_three_bytes w rest hrx).symm.trans ht)
  simp

/-- Settles O27: a command that runs no generator writes the second time what is already there; and WHITE, from reset,
gives 190 and
then 60 (95_test_vectors.md 2.9). -/
theorem repeatedCommands : Obligations.RepeatedCommands := by
  refine ⟨fun i s t u hi ht hu => ?_, State.reset, produceWith Config.table State.reset,
    produceWith Config.table (produceWith Config.table State.reset), 190, 60, rfl, rfl, ?_⟩
  · obtain ⟨r, hfirst, hagain⟩ := exec_again hi ht
    obtain rfl := Host.Outcome.next.inj (hagain.symm.trans hu)
    have htwo := answered_responses_append hfirst (answered_respond_self r t)
    obtain ⟨-, -, -, hone, -⟩ := hfirst
    exact ⟨t.respond_sel r, t.respond_mg r, t.respond_gen r, r, hone, htwo⟩
  · decide +kernel

/-- Settles O28, by what a PRODUCE does after a command that has written SEL, or MG. -/
theorem produceSeesEarlierWrites : Obligations.ProduceSeesEarlierWrites := by
  intro s t u v gain
  constructor
  · rintro ⟨⟩ hu
    simpa using exec_produce_after (answered_setsel v s) hu
  · rintro ⟨⟩ hu
    simpa [-BitVec.toNat_ofInt, ofInt_clampMG_toNat] using exec_produce_after (answered_setmg _ s) hu

/-- Settles O57: an input is taken in at most two steps, and steps left over find idle ports. -/
theorem inputsAreTakenInOrder : Obligations.InputsAreTakenInOrder := by
  intro s es fs
  obtain ⟨t, ht, hidle, happend⟩ := present_append s es
  exact ⟨t, ht, hidle, happend fs⟩

end Sys2Proof.Proofs
end

section
/-!
SUPPORT. A word put together from its fields and taken apart again: encode and decode are inverse to each other, and the
rows of 30_encoding.md R46 say which words are encodings.
-/

namespace Sys2Proof

open Sys2Proof.Laws

/-! ## The fields of a word -/

section Fields

variable (w : Word) (op : BitVec 8) (opnd : BitVec 24) (mbz : BitVec 16) (selv : BitVec 8)

theorem opField_append_opndField : opField w ++ opndField w = w := by
  apply BitVec.eq_of_toNat_eq
  rw [toNat_append_eq]
  exact (word_split w).symm

theorem opField_append_mbzS8Field_append_selvField : opField w ++ mbzS8Field w ++ selvField w = w := by
  apply BitVec.eq_of_toNat_eq
  have := word_split w
  have := opnd_split w
  simp only [toNat_append_eq]
  omega

@[simp] theorem opField_append : opField (op ++ opnd) = op := by
  apply BitVec.eq_of_toNat_eq
  have := opnd.isLt
  rw [opField_toNat, toNat_append_eq]
  omega

@[simp] theorem opndField_append : opndField (op ++ opnd) = opnd := by
  apply BitVec.eq_of_toNat_eq
  have := opnd.isLt
  rw [opndField_toNat, toNat_append_eq]
  omega

@[simp] theorem opField_append_append : opField (op ++ mbz ++ selv) = op := by
  apply BitVec.eq_of_toNat_eq
  have := mbz.isLt
  have := selv.isLt
  simp only [opField_toNat, toNat_append_eq]
  omega

@[simp] theorem mbzS8Field_append_append : mbzS8Field (op ++ mbz ++ selv) = mbz := by
  apply BitVec.eq_of_toNat_eq
  have := mbz.isLt
  have := selv.isLt
  simp only [mbzS8Field_toNat, toNat_append_eq]
  omega

@[simp] theorem selvField_append_append : selvField (op ++ mbz ++ selv) = selv := by
  apply BitVec.eq_of_toNat_eq
  have := selv.isLt
  simp only [selvField_toNat, toNat_append_eq]
  omega

end Fields

/-! ## Decode and encode -/

/-- No bit of an operand is lost (R43, R44). -/
theorem decode_encode (i : Instr) : decode (encode i) = .ok i := by
  cases i with
  | nop | produce | getsel | getmg => decide
  | setsel v | getng v => simp [encode, decode_formatS8, commandOf, -BitVec.reduceAppend]
  | setmg v => simp [encode, decode_formatG24]

section Decoded

variable {w : Word} {i : Instr} (h : decode w = .ok i)

include h

theorem encode_of_decode_formatZ
    (hop : opField w = 0x00 ∨ opField w = 0x01 ∨ opField w = 0x03 ∨ opField w = 0x05) : encode i = w := by
  rw [decode_formatZ w hop] at h
  split at h
  · rename_i hopnd
    have hw := opField_append_opndField w
    obtain rfl := Except.ok.inj h
    rcases hop with hop | hop | hop | hop <;> simpa [commandOf, encode, hop, hopnd] using hw
  · cases h

theorem encode_of_decode_formatS8 (hop : opField w = 0x02 ∨ opField w = 0x06) : encode i = w := by
  rw [decode_formatS8 w hop] at h
  split at h
  · rename_i hmbz
    have hw := opField_append_mbzS8Field_append_selvField w
    obtain rfl := Except.ok.inj h
    rcases hop with hop | hop <;> simpa [commandOf, encode, hop, hmbz] using hw
  · cases h

theorem encode_of_decode_formatG24 (hop : opField w = 0x04) : encode i = w := by
  have hw := opField_append_opndField w
  rw [decode_formatG24 w hop] at h
  obtain rfl := Except.ok.inj h
  rwa [hop] at hw

/-- A word that is a command is its opcode, zeros where its format must have them, and the command's operand. -/
theorem encode_of_decode : encode i = w := by
  rcases opField_cases w with hop | hop | hop | hop | hop | hop | hop | hop
  · rw [decode_reserved w hop] at h
    cases h
  · exact encode_of_decode_formatZ h (.inl hop)
  · exact encode_of_decode_formatZ h (.inr (.inl hop))
  · exact encode_of_decode_formatS8 h (.inl hop)
  · exact encode_of_decode_formatZ h (.inr (.inr (.inl hop)))
  · exact encode_of_decode_formatG24 h hop
  · exact encode_of_decode_formatZ h (.inr (.inr (.inr hop)))
  · exact encode_of_decode_formatS8 h (.inr hop)

end Decoded

/-! ## The rows of 30_encoding.md R46 -/

theorem encodeRow (i : Instr) : EncodeRow.Statement i := by
  cases i with
  | nop => exact EncodeRow.nop
  | produce => exact EncodeRow.produce
  | setsel v => exact EncodeRow.setsel v
  | getsel => exact EncodeRow.getsel
  | setmg v => exact EncodeRow.setmg v
  | getmg => exact EncodeRow.getmg
  | getng v => exact EncodeRow.getng v

theorem wordWellFormed_iff (w : Word) : wordWellFormed w = true ↔ ∃ r ∈ opcodeRows, r.accepts w = true := by
  simp [wordWellFormed]

theorem wordWellFormed_encode (i : Instr) : wordWellFormed (encode i) = true :=
  (wordWellFormed_iff _).mpr ⟨i.row, encodeRow i⟩

/-- Every mask covers the whole opcode, so a row accepts words of its own opcode only. -/
theorem opField_of_accepts {r : OpcodeRow} {w : Word} (hr : r ∈ opcodeRows) (h : r.accepts w = true) :
    opField r.pattern = opField w := by
  have hmask : ∀ r ∈ opcodeRows, opField r.mask = BitVec.allOnes 8 := by decide
  calc opField r.pattern = opField (w &&& r.mask) := congrArg opField (eq_of_beq h).symm
    _ = opField w &&& opField r.mask := BitVec.extractLsb'_and
    _ = opField w := by rw [hmask r hr, BitVec.and_allOnes]

/-- The seven opcodes differ. -/
theorem row_eq_of_opField_eq :
    ∀ r ∈ opcodeRows, ∀ r' ∈ opcodeRows, opField r.pattern = opField r'.pattern → r = r' := by
  decide

/-- No word matches two rows. -/
theorem row_unique {r r' : OpcodeRow} {w : Word} (hr : r ∈ opcodeRows) (hr' : r' ∈ opcodeRows)
    (h : r.accepts w = true) (h' : r'.accepts w = true) : r = r' :=
  row_eq_of_opField_eq r hr r' hr' ((opField_of_accepts hr h).trans (opField_of_accepts hr' h').symm)

theorem eq_of_accepts_formatZ {w : Word} {m : String} {f : Format} {p : Word}
    (h : OpcodeRow.accepts ⟨m, f, p, 0xFFFFFFFF⟩ w = true) : w = p :=
  BitVec.eq_of_toNat_eq ((accepts_formatZ w m f p).mp h)

theorem toNat_of_accepts_formatS8 {w : Word} {m : String} {f : Format} {p : Word}
    (h : OpcodeRow.accepts ⟨m, f, p, 0xFFFFFF00⟩ w = true) : p.toNat + (selvField w).toNat = w.toNat := by
  rw [← (accepts_formatS8 w m f p).mp h, selvField_toNat]
  omega

theorem toNat_of_accepts_formatG24 {w : Word} {m : String} {f : Format} {p : Word}
    (h : OpcodeRow.accepts ⟨m, f, p, 0xFF000000⟩ w = true) : p.toNat + (opndField w).toNat = w.toNat := by
  rw [← (accepts_formatG24 w m f p).mp h, opndField_toNat]
  omega

/-- A word that a row accepts is the word of that row's command, its operand the bits the row does not look at. -/
theorem exists_encode_of_accepts {r : OpcodeRow} {w : Word} (hr : r ∈ opcodeRows) (h : r.accepts w = true) :
    ∃ i, encode i = w := by
  simp only [opcodeRows, List.mem_cons, List.not_mem_nil, or_false] at hr
  rcases hr with rfl | rfl | rfl | rfl | rfl | rfl | rfl
  · exact ⟨.nop, (eq_of_accepts_formatZ h).symm⟩
  · exact ⟨.produce, (eq_of_accepts_formatZ h).symm⟩
  · exact ⟨.setsel (selvField w), BitVec.eq_of_toNat_eq ((encode_setsel_toNat _).trans (toNat_of_accepts_formatS8 h))⟩
  · exact ⟨.getsel, (eq_of_accepts_formatZ h).symm⟩
  · exact ⟨.setmg (opndField w), BitVec.eq_of_toNat_eq ((encode_setmg_toNat _).trans (toNat_of_accepts_formatG24 h))⟩
  · exact ⟨.getmg, (eq_of_accepts_formatZ h).symm⟩
  · exact ⟨.getng (selvField w), BitVec.eq_of_toNat_eq ((encode_getng_toNat _).trans (toNat_of_accepts_formatS8 h))⟩

/-- A word is well formed exactly when it is a command. -/
theorem wordWellFormed_iff_decode (w : Word) : wordWellFormed w = true ↔ ∃ i, decode w = .ok i := by
  constructor
  · intro h
    obtain ⟨r, hr, haccepts⟩ := (wordWellFormed_iff w).mp h
    obtain ⟨i, rfl⟩ := exists_encode_of_accepts hr haccepts
    exact ⟨i, decode_encode i⟩
  · rintro ⟨i, h⟩
    exact encode_of_decode h ▸ wordWellFormed_encode i

end Sys2Proof
end

section
/-!
SUPPORT. What the assembler of 30_encoding.md R50 answers for an operand in its range and for one out of it.
-/

namespace Sys2Proof.Asm

theorem Stmt.setsel_inRange {v : Int} : (Stmt.setsel v).inRange = true ↔ 0 ≤ v ∧ v ≤ 255 := decide_eq_true_iff

theorem Stmt.getng_inRange {v : Int} : (Stmt.getng v).inRange = true ↔ 0 ≤ v ∧ v ≤ 255 := decide_eq_true_iff

theorem Stmt.setmg_inRange {v : Int} : (Stmt.setmg v).inRange = true ↔ -8388608 ≤ v ∧ v ≤ 8388607 := decide_eq_true_iff

theorem Stmt.produce_inRange {n : Nat} : (Stmt.produce n).inRange = true ↔ 1 ≤ n := decide_eq_true_iff

theorem Stmt.word_inRange {v : Nat} : (Stmt.word v).inRange = true ↔ v < 2 ^ 32 := decide_eq_true_iff

theorem Stmt.assemble_of_inRange {st : Stmt} (h : st.inRange = true) : st.assemble = .ok st.words := if_pos h

theorem Stmt.assemble_of_not_inRange {st : Stmt} (h : ¬st.inRange = true) : st.assemble = .error .outOfRange := if_neg h

end Sys2Proof.Asm
end

section
/-!
SUPPORT. The response of every command word: where it returns, and its bits (30_encoding.md R48).
-/

namespace Sys2Proof.Machine

open Sys2Proof.Claims

theorem respZero_eq_zero_of_lt {r : Word} (h : r.toNat < 2 ^ 16) : respZero r = 0 := by
  apply BitVec.eq_of_toNat_eq
  have hdiv : r.toNat / 65536 = 0 := Nat.div_eq_of_lt h
  simp [respZero, BitVec.extractLsb'_toNat, Nat.shiftRight_eq_div_pow, hdiv]

theorem respErr_eq_false_of_lt {r : Word} (h : r.toNat < 2 ^ 16) : respErr r = false :=
  Nat.testBit_lt_two_pow (h.trans (by decide))

/-- An error response has ERR = 1 (60_exceptions.md R102). -/
theorem resp_errWord (e : CmdError) : respZero (errWord e) = 0 ∧ respErr (errWord e) = true := by
  cases e <;> decide

theorem okWord_lt (data : BitVec 16) : (okWord data).toNat < 2 ^ 16 :=
  okWord_toNat data ▸ data.isLt

/-- A command answers once, with a result of 16 bits (R48). -/
theorem exec_answered (i : Instr) (s : State) :
    ∃ t r, exec i s = .next t ∧ Answered s t r ∧ r.toNat < 2 ^ 16 := by
  cases i with
  | nop => exact ⟨_, _, rfl, answered_respond_self 0 s, by decide⟩
  | produce =>
    obtain ⟨t, r, ht, -, -, -, hanswered, hsample⟩ := exec_produce_produces s
    have := outSample_bounds (generate Config.table s.sel s.gen).2 (ngOf s.sel) s.mg.toNat
    exact ⟨t, r, ht, hanswered, by omega⟩
  | setsel v => exact ⟨_, _, rfl, answered_setsel v s, by decide⟩
  | getsel => exact ⟨_, _, rfl, answered_respond_self _ s, okWord_lt _⟩
  | setmg v => exact ⟨_, _, rfl, answered_setmg _ s, by decide⟩
  | getmg => exact ⟨_, _, rfl, answered_respond_self _ s, okWord_lt _⟩
  | getng v => exact ⟨_, _, rfl, answered_respond_self _ s, okWord_lt _⟩

/-- A word, command or not, is answered once, and the response says which (R48). -/
theorem runWord_answered (w : Word) (s : State) :
    ∃ t r, runWord w s = .next t ∧ Answered s t r ∧ respZero r = 0 ∧
      (respErr r = true ↔ ¬wordWellFormed w = true) := by
  rw [wordWellFormed_iff_decode]
  unfold runWord
  cases decode w with
  | ok i =>
    obtain ⟨t, r, ht, hanswered, hr⟩ := exec_answered i s
    exact ⟨t, r, ht, hanswered, respZero_eq_zero_of_lt hr, by simp [respErr_eq_false_of_lt hr]⟩
  | error e =>
    obtain ⟨hzero, herr⟩ := resp_errWord e
    exact ⟨_, _, rfl, answered_respond_self (errWord e) s, hzero, by simp [herr]⟩

end Sys2Proof.Machine
end

section
/-!
PROOFS. The obligations of 30_encoding.md.
-/

namespace Sys2Proof.Proofs

open Sys2Proof.Machine

/-- Settles O1: the encoding of a command decodes to it, and a word that is a command is nothing but its opcode, zeros
and the operand. -/
theorem decodeAndEncodeAgree : Obligations.DecodeAndEncodeAgree :=
  ⟨fun i => ⟨decode_encode i, wordWellFormed_encode i⟩, fun _ _ h => encode_of_decode h⟩

/-- Settles O2: the word of a command matches the command's own row, and a row accepts one opcode. -/
theorem decoderFollowsMatchAndMask : Obligations.DecoderFollowsMatchAndMask := by
  refine fun w => ⟨wordWellFormed_iff_decode w, fun i h => ?_⟩
  obtain rfl := encode_of_decode h
  obtain ⟨hmem, haccepts⟩ := encodeRow i
  exact ⟨hmem, haccepts, fun r hr h' => row_unique hr hmem h' haccepts⟩

/-- Settles O5: an operand in range fits the field its format has for it. -/
theorem assemblerKeepsOperands : Obligations.AssemblerKeepsOperands := by
  refine ⟨fun v h0 h1 => ?_, fun v h0 h1 => ?_, fun v h => ?_, fun v h => ?_⟩
  · have hv : ((BitVec.ofInt 8 v).toNat : Int) = v := uint_ofInt_of_bounds h0 (by omega)
    exact ⟨⟨_, _, Asm.Stmt.assemble_of_inRange (Asm.Stmt.setsel_inRange.mpr ⟨h0, h1⟩), decode_encode _, hv⟩,
      ⟨_, _, Asm.Stmt.assemble_of_inRange (Asm.Stmt.getng_inRange.mpr ⟨h0, h1⟩), decode_encode _, hv⟩⟩
  · have hv : (BitVec.ofInt 24 v).toInt = v := toInt_ofInt_of_bounds (by decide) h0 (by omega)
    exact ⟨_, _, Asm.Stmt.assemble_of_inRange (Asm.Stmt.setmg_inRange.mpr ⟨h0, h1⟩), decode_encode _, hv⟩
  · exact ⟨Asm.Stmt.assemble_of_not_inRange (by rw [Asm.Stmt.setsel_inRange]; omega),
      Asm.Stmt.assemble_of_not_inRange (by rw [Asm.Stmt.getng_inRange]; omega)⟩
  · exact Asm.Stmt.assemble_of_not_inRange (by rw [Asm.Stmt.setmg_inRange]; omega)

/-- Settles O15: the step runs the word at its port, and every word is answered there once. -/
theorem everyWordIsAnsweredOnce : Obligations.EveryWordIsAnsweredOnce := by
  intro s p w rest
  obtain ⟨t, r, ht, ⟨hinput, -, -, hown, hother⟩, hr⟩ := runWord_answered w (s.accept p rest)
  simp only [State.accept_input, State.accept_cur, State.accept_port] at hinput hown hother
  exact ⟨t, r, ht, hinput, hown, hother, hr⟩

/-- Settles O6, row by row of the table of R50. -/
theorem pseudoCommandsExpand : Obligations.PseudoCommandsExpand := by
  refine ⟨by decide, by decide, fun x => ⟨_, rfl, decode_encode _⟩, fun n hn => ?_, rfl, fun v hv => ?_⟩
  · exact Asm.Stmt.assemble_of_inRange (Asm.Stmt.produce_inRange.mpr hn)
  · refine ⟨_, Asm.Stmt.assemble_of_inRange (Asm.Stmt.word_inRange.mpr hv), ?_⟩
    exact (BitVec.toNat_ofNat v 32).trans (Nat.mod_eq_of_lt hv)

end Sys2Proof.Proofs
end

section
/-!
SUPPORT. Which words of an opcode are commands, what a command answers, and the step of a whole word.
-/

namespace Sys2Proof

open Sys2Proof.Claims

/-! ## The words of one opcode, by its format (30_encoding.md R44) -/

/-- A command whose word is its opcode and a zero operand is the only one of a format Z opcode. -/
theorem isFormatZ_of_encode {op : BitVec 8} {i : Instr} (hop : op = 0x00 ∨ op = 0x01 ∨ op = 0x03 ∨ op = 0x05)
    (hi : encode i = op ++ (0 : BitVec 24)) : IsFormatZ op i := by
  rintro w rfl
  refine ⟨fun hopnd => ?_, fun hopnd => ?_⟩
  · have hw : encode i = w := by
      rw [hi, ← hopnd]
      exact opField_append_opndField w
    rw [← hw]
    exact decode_encode i
  · rw [decode_formatZ w hop, if_neg hopnd]

/-- Commands whose words are their opcode, zeros and SELV are the ones of a format S8 opcode. -/
theorem isFormatS8_of_encode {op : BitVec 8} {i : BitVec 8 → Instr} (hop : op = 0x02 ∨ op = 0x06)
    (hi : ∀ v, encode (i v) = op ++ (0 : BitVec 16) ++ v) : IsFormatS8 op i := by
  rintro w rfl
  refine ⟨fun hmbz => ?_, fun hmbz => ?_⟩
  · have hw : encode (i (selvField w)) = w := by
      rw [hi, ← hmbz]
      exact opField_append_mbzS8Field_append_selvField w
    have hdecode := decode_encode (i (selvField w))
    rwa [hw] at hdecode
  · rw [decode_formatS8 w hop, if_neg hmbz]

end Sys2Proof

namespace Sys2Proof.Machine

open Sys2Proof.Claims

/-! ## The answer of a command -/

/-- A command that only responds writes no register and no generator. -/
theorem onlyAnswers_of_respond {i : Instr} {s : State} {r : Word} (h : exec i s = .next (s.respond r)) :
    OnlyAnswers i s r :=
  ⟨_, h, s.respond_sel r, s.respond_mg r, s.respond_gen r, answered_respond_self r s⟩

/-- A command has one answer. -/
theorem answered_unique {s t : State} {a b : Word} (ha : Answered s t a) (hb : Answered s t b) : a = b := by
  obtain ⟨-, -, -, hra, -⟩ := ha
  obtain ⟨-, -, -, hrb, -⟩ := hb
  simpa using hra.symm.trans hrb

/-- The word of a sample is at most 255, whatever the configuration (49_gain_and_output_normalizer.md R98). -/
theorem wrap32_sampleOf_le (c : Config) (s : State) : (wrap32 (sampleOf c s)).toNat ≤ 255 := by
  obtain ⟨h0, h1⟩ : 0 ≤ sampleOf c s ∧ sampleOf c s ≤ 255 := by
    rw [sampleOf, normalizeSample_eq_outSample]
    exact outSample_bounds ..
  have hword : ((wrap32 (sampleOf c s)).toNat : Int) = sampleOf c s := uint_ofInt_of_bounds h0 (by omega)
  omega

/-- PRODUCE answers its sample at the port of the command. -/
theorem produceWith_port_cur (c : Config) (s : State) :
    (produceWith c s).port s.cur = (s.port s.cur).answer (wrap32 (sampleOf c s)) := by
  have h := (s.setGen (generate c s.sel s.gen).1).respond_port_cur (wrap32 (sampleOf c s))
  rwa [State.setGen_port] at h

/-- Any word a PRODUCE is seen to answer is an 8-bit sample (40_commands.md R53). -/
theorem exec_produce_answer_le {s t : State} {r : Word} (ht : exec .produce s = .next t) (hr : Answered s t r) :
    r.toNat ≤ 255 := by
  obtain ⟨u, a, he, -, -, -, ha, hsample⟩ := exec_produce_produces s
  obtain rfl := Host.Outcome.next.inj (he.symm.trans ht)
  obtain rfl := answered_unique ha hr
  have := outSample_bounds (generate Config.table s.sel s.gen).2 (ngOf s.sel) s.mg.toNat
  omega

/-! ## The step of a whole word -/

theorem runWord_of_decode {w : Word} {i : Instr} (h : decode w = .ok i) (s : State) : runWord w s = exec i s := by
  rw [runWord, h]

theorem step_setInput_command (s : State) (p : PortId) (w : Word) (es : List Event) :
    step (s.setInput (.command p w :: es)) = runWord w (s.accept p es) := rfl

theorem decode_of_decodeTableWord {nbits w : Nat} {i : Instr} (h : decodeTableWord nbits w = some i) :
    decode (tableWord nbits w) = .ok i := by
  unfold decodeTableWord at h
  split at h
  · rename_i hd
    rwa [← Option.some.inj h]
  · cases h

end Sys2Proof.Machine
end

section
/-!
PROOFS. The obligations of 40_commands.md.
-/

namespace Sys2Proof.Proofs

open Sys2Proof.Machine

/-- Settles O24: the clamped operand fits MG, which is all that is written before the answer. -/
theorem setmgWritesTheClampedOperand : Obligations.SetmgWritesTheClampedOperand := by
  refine ⟨decode_formatG24, fun v s => ⟨_, rfl, ?_, ?_, ?_, answered_setmg _ s⟩⟩
  · rw [State.respond_mg, State.setMg_mg, ofInt_clampMG_toNat]
  · rw [State.respond_sel, State.setMg_sel]
  · rw [State.respond_gen, State.setMg_gen]

/-- Settles O26, with the gain read from the table for each code. -/
theorem getngAnswersTheGain : Obligations.GetngAnswersTheGain := by
  refine ⟨isFormatS8_of_encode (by decide) fun _ => rfl, fun v s => ⟨_, ?_, onlyAnswers_of_respond rfl⟩⟩
  rw [okWord_toNat, ← uint_romNg, uint]

/-- Settles O29, by what a PRODUCE does in every state. -/
theorem produceAlwaysAnswersASample : Obligations.ProduceAlwaysAnswersASample :=
  ⟨isFormatZ_of_encode (by decide) rfl, fun s => ⟨exec_produce_produces s, fun _ _ => exec_produce_answer_le⟩⟩

/-- Settles O4: ten of the words are encodings, one has a reserved opcode, and one a bit that must be zero. -/
theorem workedEncodingsDecode : Obligations.WorkedEncodingsDecode :=
  ⟨decode_encode .nop, decode_encode .produce, decode_encode (.setsel 0x01), decode_encode (.setsel 0xFF),
    decode_encode .getsel, decode_encode (.setmg 0x004000), decode_encode (.setmg 0xFFFFFF),
    decode_encode (.setmg 0x009C40), decode_encode .getmg, decode_encode (.getng 0x00),
    decode_reserved _ (by decide), by decide⟩

/-- Settles O7: the step of a word is the word run where its input has been taken. -/
theorem stepRunsTheDecodedCommand : Obligations.StepRunsTheDecodedCommand := by
  intro s w wc p rest i h
  exact ⟨(step_setInput_command s p w rest).trans (runWord_of_decode h _),
    (step_sameCycle s w wc rest).trans ((step_setInput_command s .portS w _).trans (runWord_of_decode h _))⟩

/-- Settles O10: loading a word presents it at port S, ahead of the inputs to come. -/
theorem loadedWordRunsNext : Obligations.LoadedWordRunsNext := by
  intro s nbits w i h
  exact (step_setInput_command s .portS _ s.input).trans (runWord_of_decode (decode_of_decodeTableWord h) _)

/-- Settles O21: NOP does nothing before its answer. -/
theorem nopOnlyAnswersZero : Obligations.NopOnlyAnswersZero :=
  ⟨isFormatZ_of_encode (by decide) rfl, fun _ => onlyAnswers_of_respond rfl⟩

/-- Settles O22: SEL is all that is written before the answer. -/
theorem setselWritesOnlySel : Obligations.SetselWritesOnlySel := by
  refine ⟨isFormatS8_of_encode (by decide) fun _ => rfl, fun v s => ⟨_, rfl, ?_, ?_, ?_, answered_setsel v s⟩⟩
  · rw [State.respond_sel, State.setSel_sel]
  · rw [State.respond_mg, State.setSel_mg]
  · rw [State.respond_gen, State.setSel_gen]

/-- Settles O23: the response's data is SEL, extended with zeros. -/
theorem getselAnswersSel : Obligations.GetselAnswersSel := by
  refine ⟨isFormatZ_of_encode (by decide) rfl, fun s => ⟨_, ?_, onlyAnswers_of_respond rfl⟩⟩
  rw [okWord_toNat, BitVec.toNat_setWidth_of_le (by decide)]

/-- Settles O25: the response's data is MG. -/
theorem getmgAnswersMg : Obligations.GetmgAnswersMg :=
  ⟨isFormatZ_of_encode (by decide) rfl, fun s => ⟨_, okWord_toNat s.mg, onlyAnswers_of_respond rfl⟩⟩

/-- Settles O34: the clamp of the output normalizer does not depend on the configuration. -/
theorem sampleIsEightBitsInEveryConfiguration : Obligations.SampleIsEightBitsInEveryConfiguration :=
  fun c s => ⟨_, wrap32_sampleOf_le c s, produceWith_port_cur c s⟩

end Sys2Proof.Proofs
end

section
/-!
SUPPORT. The increment of a frequency and the advance of a phase (41_phase_accumulator.md R61, R62): their values, and that
a frequency higher by the sample rate has the same increment.
-/

namespace Sys2Proof.Machine

/-! ## The increment of a frequency -/

theorem hzToInc_toNat (c : Config) (fRaw : Nat) : (hzToInc c fRaw).toNat = fRaw * 65536 / c.fs % 2 ^ 32 :=
  BitVec.toNat_ofNat _ _

theorem hzToInc_zero (c : Config) : hzToInc c 0 = 0 := by
  rw [hzToInc, Nat.zero_mul, Nat.zero_div, BitVec.ofNat_eq_ofNat]

/-- Aliasing: the sample rate itself is one whole turn of the phase a sample. -/
theorem hzToInc_add_fs {c : Config} (h : 0 < c.fs) (fRaw : Nat) :
    hzToInc c (fRaw + 65536 * c.fs) = hzToInc c fRaw := by
  have hturn : (fRaw + 65536 * c.fs) * 65536 = fRaw * 65536 + 2 ^ 32 * c.fs := by ring
  apply BitVec.eq_of_toNat_eq
  rw [hzToInc_toNat, hzToInc_toNat, hturn, Nat.add_mul_div_right _ _ h, Nat.add_mod_right]

/-! ## The advance of a phase -/

theorem advance_toNat (ph inc : BitVec 32) : (advance ph inc).toNat = (ph.toNat + inc.toNat) % 2 ^ 32 := by
  rw [advance_eq_add, BitVec.toNat_add]

end Sys2Proof.Machine
end

section
/-!
PROOFS. The obligations of 41_phase_accumulator.md.
-/

namespace Sys2Proof.Proofs

open Sys2Proof.Machine

/-- Settles O49: the increment's value, its zero and its aliasing at any sample rate, and the increments of R6. -/
theorem frequencyToIncrement : Obligations.FrequencyToIncrement :=
  ⟨fun c fRaw h => ⟨hzToInc_toNat c fRaw, hzToInc_zero c, hzToInc_add_fs h fRaw⟩,
    INC_SINE_table, INC_AM_C_table, INC_RING_A_table, INC_AM_L_table, INC_RING_B_table, INC_HOWL_LO_table,
    INC_HOWL_HI_table, INC_HOWL_SWEEP_table, INC_GRAN_MIN_table, INC_GRAN_MAX_table⟩

/-- Settles O50: the sum of two registers is below two periods, so its remainder is the sum, less one period if it is
reached. -/
theorem phaseWrapsByOnePeriod : Obligations.PhaseWrapsByOnePeriod := by
  intro ph inc
  have hph := ph.isLt
  have hinc := inc.isLt
  rw [advance_toNat]
  refine ⟨Nat.mod_eq_of_lt, fun hcross => ?_⟩
  rw [Nat.mod_eq_sub_mod hcross, Nat.mod_eq_of_lt (by omega), Nat.sub_add_cancel hcross]

end Sys2Proof.Proofs
end

section
/-!
SUPPORT. The sine lookup as a function of the phase's index, and the SINE generator in its registers
(42_sine_lookup_table.md R66, R68); and what a PRODUCE does when SEL is a supported code.
-/

namespace Sys2Proof.Machine

open Sys2Proof.Claims

/-! ## The sine lookup -/

theorem sinlutIndex_toNat (ph : BitVec 32) : (ph.extractLsb' 22 10).toNat = ph.toNat / 2 ^ 22 := by
  have := ph.isLt
  simp [BitVec.extractLsb'_toNat, Nat.shiftRight_eq_div_pow]
  omega

/-- There is no interpolation: only the index counts. -/
theorem sinlut_congr {ph ph' : BitVec 32} (h : ph.toNat / 2 ^ 22 = ph'.toNat / 2 ^ 22) : sinlut ph = sinlut ph' := by
  have hindex : ph.extractLsb' 22 10 = ph'.extractLsb' 22 10 :=
    BitVec.eq_of_toNat_eq (by rw [sinlutIndex_toNat, sinlutIndex_toNat, h])
  rw [sinlut, sinlut, hindex]

/-- Half a turn leaves the place in the quadrant and moves the quadrant on by two, to the one with the same entry and the
other sign. -/
theorem sinlut_add_half_turn (ph : BitVec 32) : sinlut (ph + 0x80000000) = -sinlut ph := by
  have hadd : (ph + 0x80000000).toNat = (ph.toNat + 2 ^ 31) % 2 ^ 32 := BitVec.toNat_add ..
  have hplace : (ph + 0x80000000).toNat / 2 ^ 22 % 256 = ph.toNat / 2 ^ 22 % 256 := by omega
  have hquadrant : (ph + 0x80000000).toNat / 2 ^ 30 = (ph.toNat / 2 ^ 30 + 2) % 4 := by omega
  obtain ⟨f0, f1, f2, f3⟩ := sinlut_quadrants ph
  obtain ⟨g0, g1, g2, g3⟩ := sinlut_quadrants (ph + 0x80000000)
  rw [hquadrant, hplace] at g0 g1 g2 g3
  have hq : ph.toNat / 2 ^ 30 = 0 ∨ ph.toNat / 2 ^ 30 = 1 ∨ ph.toNat / 2 ^ 30 = 2 ∨ ph.toNat / 2 ^ 30 = 3 := by
    have := ph.isLt
    omega
  rcases hq with h | h | h | h
  · rw [g2 (by rw [h]), f0 h]
  · rw [g3 (by rw [h]), f1 h]
  · rw [g0 (by rw [h]), f2 h, neg_neg]
  · rw [g1 (by rw [h]), f3 h, neg_neg]

/-! ## The SINE generator -/

theorem drawn_eq_draw (l : BitVec 32) : drawn l = draw l := rfl

theorem jitter_eq_toInt (l : BitVec 32) : jitter l = (l.setWidth 18).toInt := by
  unfold jitter sext uint
  congr 1

/-- The sum of the pseudocode, wrapped, is the sum of the registers. -/
theorem wrap32_add_add_jitter (ph inc l : BitVec 32) :
    wrap32 (uint ph + uint inc + jitter l) = ph + inc + (l.setWidth 18).signExtend 32 := by
  rw [jitter_eq_toInt, wrap32, BitVec.ofInt_add, BitVec.signExtend]
  exact congrArg (· + _) (advance_eq_add ph inc)

theorem genSine_table (x : Sine) :
    genSine Config.table x =
      let ph := x.ph + 171409125 + ((drawn x.lfsr).setWidth 18).signExtend 32
      (⟨drawn x.lfsr, ph⟩, sinlut ph * 127 / 32768) := by
  rw [genSine, INC_SINE_table, wrap32_add_add_jitter, ← drawn_eq_draw]
  rfl

/-! ## A PRODUCE of a supported selector -/

theorem produces_runGenerator {s : State} {x : Selector} (h : s.sel = x.code) :
    Produces s (runGenerator Config.table s.gen x).1 (runGenerator Config.table s.gen x).2 := by
  rw [← generate_code, ← h]
  exact exec_produce_produces s

end Sys2Proof.Machine
end

section
/-!
PROOFS. The obligations of 42_sine_lookup_table.md.
-/

namespace Sys2Proof.Proofs

open Sys2Proof.Machine

/-- Settles O43, by the SINE generator's step in its registers. -/
theorem produceSine : Obligations.ProduceSine := by
  intro s hsel
  have hproduces := produces_runGenerator (x := .sine) hsel
  rw [runGenerator_sine, genSine_table] at hproduces
  exact hproduces

/-- Settles O51: the quadrants of R66, of which half a turn exchanges those of opposite sign. -/
theorem sineLookup : Obligations.SineLookup := by
  refine ⟨?_, fun _ _ => sinlut_congr, fun ph => ?_⟩
  · rintro ph _ rfl
    exact sinlut_quadrants ph
  · obtain ⟨hlo, hhi⟩ := sinlut_bounds ph
    exact ⟨hlo, hhi, sinlut_add_half_turn ph⟩

/-- Settles O52; that the table never decreases is read off its neighbouring entries. -/
theorem sineTablePassesItsChecks : Obligations.SineTablePassesItsChecks :=
  ⟨by decide +kernel, by decide +kernel, by decide +kernel, List.isChain_iff_pairwise.mp (by decide +kernel)⟩

end Sys2Proof.Proofs
end

section
/-!
SUPPORT. The LFSR step as a linear map, the second draw of PINK, and the noise colors in the words of their registers
(43_noise_lfsr_coloring.md R69, R72, R73, R74).
-/

namespace Sys2Proof.Machine

open Sys2Proof.Claims

/-! ## The random source -/

/-- The step is linear over the exclusive or, since the toggle masks of the two values cancel when both are applied. -/
theorem lfsrStep_xor (a b : BitVec 32) : lfsrStep (a ^^^ b) = lfsrStep a ^^^ lfsrStep b := by
  have hmask : ∀ p q : Bool, (if (p ^^ q) = true then Config.LFSR_MASK else 0) =
      (if p = true then Config.LFSR_MASK else 0) ^^^ (if q = true then Config.LFSR_MASK else 0) := by decide
  unfold lfsrStep
  rw [BitVec.ushiftRight_xor_distrib, BitVec.getLsbD_xor, hmask]
  ac_rfl

/-- Two values with the same step differ by a value whose step is 0, and only 0 is one. -/
theorem lfsrStep_injective : Function.Injective lfsrStep := by
  intro a b h
  have hdiff : lfsrStep (a ^^^ b) = 0 := by rw [lfsrStep_xor, h, BitVec.xor_self]; rfl
  exact BitVec.xor_eq_zero_iff.mp (not_not.mp fun hne => lfsrStep_ne_zero hne hdiff)

theorem lfsrStep_iterate_ne_zero (n : Nat) {l : BitVec 32} (h : l ≠ 0) : lfsrStep^[n] l ≠ 0 :=
  Function.Iterate.rec (· ≠ (0 : BitVec 32)) h (fun _ => lfsrStep_ne_zero) n

theorem s16_eq_low16 (l : BitVec 32) : s16 l = low16 l := s16_eq_toInt l

/-! ## WHITE and BROWN -/

theorem genWhite_eq (x : White) : genWhite x = (⟨drawn x.lfsr⟩, low16 (drawn x.lfsr) * 127 / 32768) := by
  rw [genWhite, ← drawn_eq_draw, s16_eq_low16]
  rfl

theorem genBrown_eq (x : Brown) :
    genBrown x =
      let acc := max (-32768) (min 32768 (x.acc.toInt * 32702 / 32768 + low16 (drawn x.lfsr) / 32))
      (⟨drawn x.lfsr, BitVec.ofInt 18 acc⟩, acc * 127 / 32768) := by
  rw [genBrown, ← drawn_eq_draw, s16_eq_low16, clamp_eq_max_min _ (by decide)]
  rfl

/-! ## PINK -/

theorem wrap32_add_one (v : BitVec 32) : wrap32 (uint v + 1) = v + 1 := advance_eq_add v 1

/-- A checked write at an index within the vector is the write itself. -/
theorem setIfInBounds_eq_set {α : Type} {n i : Nat} (v : Vector α n) (a : α) (h : i < n) :
    v.setIfInBounds i a = v.set i a := by
  ext j hj
  rw [Vector.getElem_setIfInBounds, Vector.getElem_set]

/-- No count of trailing zeros up to 14 is that of a multiple of 2^15. -/
theorem lt_ctz32_of_mod_eq_zero {v : BitVec 32} (h : v.toNat % 2 ^ 15 = 0) : 14 < ctz32 v := by
  by_contra! hle
  have hbit : v.toNat % 2 ^ (ctz32 v + 1) = 2 ^ ctz32 v := (ctz_eq_iff 32 _ _ (by omega)).mp rfl
  have hdvd : 2 ^ (ctz32 v + 1) ∣ v.toNat := (pow_dvd_pow 2 (by omega)).trans (Nat.dvd_of_mod_eq_zero h)
  rw [Nat.mod_eq_zero_of_dvd hdvd] at hbit
  exact (Nat.two_pow_pos _).ne hbit

section Pink

variable (x : Pink)

/-- The octave registers once register 0 has taken the first draw. -/
def Pink.firstRefresh : Vector (BitVec 16) 16 := x.preg.set 0 ((drawn x.lfsr).setWidth 16)

theorem genPink_of_second_draw {i : Nat} (hi : i ≤ 14) (h : ctz32 (x.cnt + 1) = i) :
    genPink x =
      let l := drawn (drawn x.lfsr)
      let preg := x.firstRefresh.set (i + 1) (l.setWidth 16)
      (⟨l, x.cnt + 1, preg⟩, pinkRaw preg) := by
  simp only [genPink, wrap32_add_one, h, if_pos hi, ← drawn_eq_draw, ofInt_s16,
    setIfInBounds_eq_set _ _ (show i + 1 < 16 by omega)]
  rfl

theorem genPink_of_one_draw (h : 14 < ctz32 (x.cnt + 1)) :
    genPink x = (⟨drawn x.lfsr, x.cnt + 1, x.firstRefresh⟩, pinkRaw x.firstRefresh) := by
  simp only [genPink, wrap32_add_one, if_neg h.not_ge, ← drawn_eq_draw, ofInt_s16]
  rfl

end Pink

end Sys2Proof.Machine
end

section
/-!
PROOFS. The obligations of 43_noise_lfsr_coloring.md.
-/

namespace Sys2Proof.Proofs

open Sys2Proof.Machine

/-- Settles O38, by the WHITE generator's step in its registers. -/
theorem produceWhite : Obligations.ProduceWhite := by
  intro s hsel
  have hproduces := produces_runGenerator (x := .white) hsel
  rw [runGenerator_white, genWhite_eq] at hproduces
  exact hproduces

/-- Settles O39: a count that is 2^i modulo 2^(i+1) has i trailing zeros, and a multiple of 2^15 has more than 14. -/
theorem producePink : Obligations.ProducePink := by
  intro s hsel
  have hproduces := produces_runGenerator (x := .pink) hsel
  rw [runGenerator_pink] at hproduces
  refine ⟨fun i hi hcnt => ?_, fun hcnt => ?_⟩
  · rw [genPink_of_second_draw _ hi ((ctz_eq_iff 32 _ i (by omega)).mpr hcnt)] at hproduces
    exact hproduces
  · rw [genPink_of_one_draw _ (lt_ctz32_of_mod_eq_zero hcnt)] at hproduces
    exact hproduces

/-- Settles O40: the clamped accumulator fits its register of 18 bits. -/
theorem produceBrown : Obligations.ProduceBrown := by
  intro s hsel
  have hproduces := produces_runGenerator (x := .brown) hsel
  rw [runGenerator_brown, genBrown_eq] at hproduces
  exact ⟨_, toInt_ofInt_of_bounds (by decide) (by omega) (by omega), hproduces⟩

/-- Settles O48: an injective map of a finite type is a bijection. -/
theorem lfsrStepIsABijection : Obligations.LfsrStepIsABijection :=
  ⟨fun _ => rfl, Finite.injective_iff_bijective.mp lfsrStep_injective, rfl, fun n _ => lfsrStep_iterate_ne_zero n⟩

end Sys2Proof.Proofs
end

section
/-!
SUPPORT. The two tap sets as differences of the samples in the delay line, and the filtered colors in the words of their
registers (44_fir_filter.md R77, R78, R79).
-/

namespace Sys2Proof.Machine

open Sys2Proof.Claims

/-! ## The tap sets -/

/-- The two taps of BLUE are one half and its negation, and its third is zero: half the first difference. -/
theorem fir_H_BLUE (x0 x1 x2 : Int) : fir H_BLUE x0 x1 x2 = (x0 - x1) / 2 := by
  have hsum : 16384 * x0 + -16384 * x1 + 0 * x2 = 16384 * (x0 - x1) := by ring
  calc fir H_BLUE x0 x1 x2 = 16384 * (x0 - x1) / (16384 * 2) := congrArg (asr · 15) hsum
    _ = (x0 - x1) / 2 := Int.mul_ediv_mul_of_pos _ _ (by decide)

/-- The taps of VIOLET are 10923 times 1, -2 and 1. -/
theorem fir_H_VIOLET (x0 x1 x2 : Int) : fir H_VIOLET x0 x1 x2 = 10923 * (x0 - 2 * x1 + x2) / 32768 := by
  have hsum : 10923 * x0 + -21846 * x1 + 10923 * x2 = 10923 * (x0 - 2 * x1 + x2) := by ring
  exact congrArg (asr · 15) hsum

/-! ## BLUE and VIOLET -/

theorem genBlue_eq (x : Blue) :
    genBlue x =
      let l := drawn x.lfsr
      (⟨l, l.setWidth 16, x.x1⟩, (low16 l - x.x1.toInt) / 2 * 127 / 32768) := by
  rw [genBlue, fir_H_BLUE, ofInt_s16, ← drawn_eq_draw, s16_eq_low16]
  rfl

theorem genViolet_eq (x : Violet) :
    genViolet x =
      let l := drawn x.lfsr
      (⟨l, l.setWidth 16, x.x1⟩,
        10923 * (low16 l - 2 * x.x1.toInt + x.x2.toInt) / 32768 * 127 / 32768) := by
  rw [genViolet, fir_H_VIOLET, ofInt_s16, ← drawn_eq_draw, s16_eq_low16]
  rfl

end Sys2Proof.Machine
end

section
/-!
PROOFS. The obligations of 44_fir_filter.md.
-/

namespace Sys2Proof.Proofs

open Sys2Proof.Machine

/-- Settles O41: the taps of BLUE halve the first difference, and the draw's low half is the next delayed sample. -/
theorem produceBlue : Obligations.ProduceBlue := by
  intro s hsel
  have hproduces := produces_runGenerator (x := .blue) hsel
  rw [runGenerator_blue, genBlue_eq] at hproduces
  exact hproduces

/-- Settles O42: the taps of VIOLET scale the second difference, and its delay line moves on as that of BLUE does. -/
theorem produceViolet : Obligations.ProduceViolet := by
  intro s hsel
  have hproduces := produces_runGenerator (x := .violet) hsel
  rw [runGenerator_violet, genViolet_eq] at hproduces
  exact hproduces

end Sys2Proof.Proofs
end

section
/-!
SUPPORT. The range of the tremolo envelope, and the two modulated generators in the words of their registers
(45_amplitude_modulator.md R80, R81, R82, R83).
-/

namespace Sys2Proof.Machine

/-! ## The envelope -/

/-- What the LFO opens above the floor is a share below one of the distance from the floor to one. -/
theorem amenv_bounds {c : Config} {l : Int} (hc : c.amDmin < 32768) (hlo : -32767 ≤ l) (hhi : l ≤ 32767) :
    c.amDmin ≤ amenv c l ∧ amenv c l ≤ 32767 := by
  obtain ⟨hu0, hu1⟩ := unipolar_bounds hlo hhi
  have hdepth : 0 < 32768 - c.amDmin := by omega
  have hopen : 0 ≤ asr ((32768 - c.amDmin) * unipolar l) 15 ∧
      asr ((32768 - c.amDmin) * unipolar l) 15 ≤ 32767 - c.amDmin := by
    refine asr_bounds 15 ?_ ?_
    · rw [zero_mul]
      exact mul_nonneg hdepth.le hu0
    · calc (32768 - c.amDmin) * unipolar l < (32768 - c.amDmin) * 2 ^ 15 :=
            mul_lt_mul_of_pos_left (by omega) hdepth
        _ = (32767 - c.amDmin + 1) * 2 ^ 15 := by ring
  unfold amenv
  omega

theorem amenv_table (l : Int) : amenv Config.table l = 6554 + 26214 * ((l + 32768) / 2) / 32768 := rfl

/-! ## AM_TREMOLO and RING_MOD -/

theorem genAm_table (x : AmTremolo) :
    genAm Config.table x =
      let cph := x.cph + 171409125
      let lph := x.lph + 1947830
      let env := 6554 + 26214 * ((sinlut lph + 32768) / 2) / 32768
      (⟨cph, lph⟩, sinlut cph * env / 32768 * 127 / 32768) := by
  simp only [genAm, advance_eq_add, INC_AM_C_table, INC_AM_L_table, amenv_table]
  rfl

theorem genRing_table (x : RingMod) :
    genRing Config.table x =
      let pha := x.pha + 171409125
      let phb := x.phb + 116869858
      (⟨pha, phb⟩, sinlut pha * sinlut phb / 32768 * 127 / 32768) := by
  simp only [genRing, advance_eq_add, INC_RING_A_table, INC_RING_B_table]
  rfl

end Sys2Proof.Machine
end

section
/-!
PROOFS. The obligations of 45_amplitude_modulator.md.
-/

namespace Sys2Proof.Proofs

open Sys2Proof.Machine

/-- Settles O44: both phases advance by their increments, and the carrier is scaled by the envelope above its floor. -/
theorem produceAmTremolo : Obligations.ProduceAmTremolo := by
  intro s hsel
  have hproduces := produces_runGenerator (x := .amTremolo) hsel
  rw [runGenerator_amTremolo, genAm_table] at hproduces
  exact hproduces

/-- Settles O45: both phases advance by their increments, and the sample is the product of their sines. -/
theorem produceRingMod : Obligations.ProduceRingMod := by
  intro s hsel
  have hproduces := produces_runGenerator (x := .ringMod) hsel
  rw [runGenerator_ringMod, genRing_table] at hproduces
  exact hproduces

/-- Settles O53, by the range of the sine lookup; the floor only has to be below one. -/
theorem envelopeStaysAboveItsFloor : Obligations.EnvelopeStaysAboveItsFloor := by
  intro c lph _ hfloor
  obtain ⟨hlo, hhi⟩ := sinlut_bounds lph
  exact amenv_bounds hfloor hlo hhi

end Sys2Proof.Proofs
end

section
/-!
SUPPORT. The coefficients of the resonator, the soft clipper as one rational curve, and FEEDBACK_HOWL in the words of
its registers (46_iir_biquad.md R84, R85, R86, R87).
-/

namespace Sys2Proof.Machine

open Sys2Proof.Claims

/-! ## The resonator's coefficients -/

theorem howlOmr_bounds {incc : Int} (hlo : 116869858 ≤ incc) (hhi : incc ≤ 584335024) :
    3671353 ≤ howlOmr incc ∧ howlOmr incc ≤ 18356319 :=
  asr_bounds 18 (by unfold Config.HOWL_RK; omega) (by unfold Config.HOWL_RK; omega)

/-- With r = 2^30 - omr, the square of the radius is 2^30 - 2 omr and what the square of omr adds. -/
theorem howlcoef_a2 (incc : Int) :
    (howlcoef incc).a2 = 2 ^ 30 - 2 * howlOmr incc + asr (howlOmr incc * howlOmr incc) 30 := by
  have hsquare : howlR incc * howlR incc =
      howlOmr incc * howlOmr incc + (2 ^ 30 - 2 * howlOmr incc) * 2 ^ 30 := by
    unfold howlR
    ring
  calc (howlcoef incc).a2 = asr (howlR incc * howlR incc) 30 := rfl
    _ = asr (howlOmr incc * howlOmr incc) 30 + (2 ^ 30 - 2 * howlOmr incc) := by
      rw [hsquare, asr, Int.add_mul_ediv_right _ _ (by decide), asr]
    _ = 2 ^ 30 - 2 * howlOmr incc + asr (howlOmr incc * howlOmr incc) 30 := add_comm _ _

/-- The cosine is at most one, whatever the centre. -/
theorem abs_howlcoef_a1_le {incc : Int} (h : 0 ≤ howlR incc) : |(howlcoef incc).a1| ≤ 2 * howlR incc := by
  obtain ⟨hlo, hhi⟩ := sinlut_bounds (quarterOn incc)
  have hprod_lo : howlR incc * -32768 ≤ howlR incc * sinlut (quarterOn incc) :=
    mul_le_mul_of_nonneg_left (by omega) h
  have hprod_hi : howlR incc * sinlut (quarterOn incc) ≤ howlR incc * 32768 :=
    mul_le_mul_of_nonneg_left (by omega) h
  have ha1 : (howlcoef incc).a1 = -asr (howlR incc * sinlut (quarterOn incc)) 14 := rfl
  rw [ha1, abs_neg, abs_le]
  exact asr_bounds 14 (by omega) (by omega)

/-- The square of omr at the low end of the sweep is 12553 units of Q2.30, the margin of R85. -/
theorem howlOmr_sq_bounds {incc : Int} (hlo : 3671353 ≤ howlOmr incc) (hhi : howlOmr incc ≤ 18356319) :
    12553 ≤ asr (howlOmr incc * howlOmr incc) 30 ∧ asr (howlOmr incc * howlOmr incc) 30 ≤ 313813 := by
  have hsq_lo : 3671353 * 3671353 ≤ howlOmr incc * howlOmr incc := mul_self_le_mul_self (by decide) hlo
  have hsq_hi : howlOmr incc * howlOmr incc ≤ 18356319 * 18356319 := mul_self_le_mul_self (by omega) hhi
  exact asr_bounds 30 (by omega) (by omega)

/-! ## The soft clipper -/

/-- The rational curve between the clipper's two flat pieces (R86). -/
def softclipCurve (x : Int) : Int := tdiv (x * (28991029248 + x * x)) (28991029248 + 9 * x * x)

/-- A smaller fraction, both denominators positive, is not truncated to a larger integer. -/
theorem tdiv_le_tdiv_of_mul_le {a b c d : Int} (hb : 0 < b) (hd : 0 < d) (h : d * a ≤ b * c) :
    tdiv a b ≤ tdiv c d := by
  calc tdiv a b = Int.tdiv (d * a) (d * b) := (Int.mul_tdiv_mul_of_pos _ _ hd).symm
    _ ≤ Int.tdiv (b * c) (d * b) := Int.tdiv_le_tdiv (mul_pos hd hb) h
    _ = Int.tdiv (b * c) (b * d) := by rw [mul_comm d b]
    _ = tdiv c d := Int.mul_tdiv_mul_of_pos _ _ hb

/-- With K = 27 × 2^30 the cross product of two points of the curve is the distance between them times
(K - 3xy)² + K(x - y)². -/
theorem softclipCurve_mono : Monotone softclipCurve := by
  have hpos : ∀ v : Int, 0 < 28991029248 + 9 * v * v := fun v => by nlinarith [mul_self_nonneg v]
  intro x y hxy
  apply tdiv_le_tdiv_of_mul_le (hpos x) (hpos y)
  have hcross : 0 ≤ (y - x) * ((28991029248 - 3 * (x * y)) ^ 2 + 28991029248 * (x - y) ^ 2) :=
    mul_nonneg (sub_nonneg.mpr hxy) (by positivity)
  exact sub_nonneg.mp (hcross.trans_eq (by ring))

theorem softclipCurve_neg (x : Int) : softclipCurve (-x) = -softclipCurve x := by
  unfold softclipCurve tdiv
  rw [← Int.neg_tdiv]
  congr 1 <;> ring

theorem softclip_of_ge {x : Int} (h : 98304 ≤ x) : softclip x = 32768 := if_pos h

theorem softclip_of_le {x : Int} (h : x ≤ -98304) : softclip x = -32768 := by
  rw [softclip, if_neg (by omega), if_pos h]

theorem softclip_of_between {x : Int} (hlo : -98304 < x) (hhi : x < 98304) : softclip x = softclipCurve x := by
  rw [softclip, if_neg (by omega), if_neg (by omega), softclipCurve]

/-- The curve meets both flat pieces, so the clipper is the curve at the input clamped to them. -/
theorem softclip_eq_curve (x : Int) : softclip x = softclipCurve (max (-98304) (min 98304 x)) := by
  have hupper : softclipCurve 98304 = 32768 := by decide
  have hlower : softclipCurve (-98304) = -32768 := by decide
  rcases le_or_gt 98304 x with hge | hlt
  · rw [softclip_of_ge hge, min_eq_left hge, max_eq_right (by decide), hupper]
  · rcases le_or_gt x (-98304) with hle | hgt
    · rw [softclip_of_le hle, min_eq_right hlt.le, max_eq_left hle, hlower]
    · rw [softclip_of_between hgt hlt, min_eq_right hlt.le, max_eq_right hgt.le]

theorem softclip_mono : Monotone softclip := by
  intro x y hxy
  rw [softclip_eq_curve, softclip_eq_curve]
  exact softclipCurve_mono (by omega)

theorem softclip_neg (x : Int) : softclip (-x) = -softclip x := by
  rw [softclip_eq_curve, softclip_eq_curve, ← softclipCurve_neg]
  congr 1
  omega

theorem softclip_bounds (x : Int) : -32768 ≤ softclip x ∧ softclip x ≤ 32768 := by
  have hlower : softclip (min (-98304) x) ≤ softclip x := softclip_mono (min_le_right _ _)
  have hupper : softclip x ≤ softclip (max 98304 x) := softclip_mono (le_max_right _ _)
  rw [softclip_of_le (min_le_left _ _)] at hlower
  rw [softclip_of_ge (le_max_left _ _)] at hupper
  exact ⟨hlower, hupper⟩

/-! ## FEEDBACK_HOWL -/

theorem howlDrive_low16_bounds (l : BitVec 32) : -655 ≤ low16 l * 655 / 32768 ∧ low16 l * 655 / 32768 ≤ 654 := by
  rw [← s16_eq_low16]
  exact howlDrive_bounds l

theorem howlCentre_table (lph : BitVec 32) :
    howlCentre Config.table lph = 116869858 + 467479433 * ((sinlut lph + 32768) / 2) / 32768 := by
  rw [howlCentre, INC_HOWL_LO_table, INC_HOWL_HI_table]
  rfl

/-- The resonator has no zeros, so it reads no delayed input. -/
theorem biquad_howlcoef (incc x0 x1 x2 y1 y2 : Int) :
    biquad (howlcoef incc) x0 x1 x2 y1 y2 = max (-131072) (min 131072
      ((1073741824 * x0 - (howlcoef incc).a1 * y1 - (howlcoef incc).a2 * y2) / 1073741824)) := by
  have hsum : 1073741824 * x0 + 0 * x1 + 0 * x2 = 1073741824 * x0 := by ring
  rw [biquad, clamp_eq_max_min _ (by decide)]
  simp only [howlcoef, Config.HOWL_B0, hsum]
  rfl

theorem genHowl_table (x : FeedbackHowl) :
    genHowl Config.table x =
      let l := drawn x.lfsr
      let x0 := low16 l * 655 / 32768
      let lph := x.lph + 38958
      let incc := 116869858 + 467479433 * ((sinlut lph + 32768) / 2) / 32768
      let r := 1073741824 - incc * 8235 / 262144
      let a1 := -(r * sinlut (BitVec.ofInt 32 (incc + 1073741824)) / 16384)
      let a2 := r * r / 1073741824
      let y0 := max (-131072) (min 131072
        ((1073741824 * x0 - a1 * x.y1.toInt - a2 * x.y2.toInt) / 1073741824))
      (⟨l, lph, BitVec.ofInt 32 x0, x.x1, BitVec.ofInt 32 y0, x.y1⟩, softclip (y0 * 4) * 120 / 32768) := by
  rw [genHowl, advance_eq_add, INC_HOWL_SWEEP_table, howlCentre_table, biquad_howlcoef, ← drawn_eq_draw, s16_eq_low16]
  rfl

end Sys2Proof.Machine
end

section
/-!
PROOFS. The obligations of 46_iir_biquad.md.
-/

namespace Sys2Proof.Proofs

open Sys2Proof.Machine

/-- Settles O46: the drive and the clamped output of the resonator both fit their registers of 32 bits. -/
theorem produceFeedbackHowl : Obligations.ProduceFeedbackHowl := by
  intro s hsel
  have hproduces := produces_runGenerator (x := .feedbackHowl) hsel
  rw [runGenerator_feedbackHowl, genHowl_table] at hproduces
  obtain ⟨hdrive_lo, hdrive_hi⟩ := howlDrive_low16_bounds (Claims.drawn s.gen.feedbackHowl.lfsr)
  exact ⟨_, _, toInt_ofInt_of_bounds (by decide) (by omega) (by omega),
    toInt_ofInt_of_bounds (by decide) (by omega) (by omega), hproduces⟩

/-- Settles O54: the margin is the square of omr, since |a1| is at most 2 r and 2^30 + a2 is 2 r and that square. -/
theorem resonatorIsStable : Obligations.ResonatorIsStable := by
  intro incc hlo hhi
  obtain ⟨homr_lo, homr_hi⟩ := howlOmr_bounds hlo hhi
  obtain ⟨hsq_lo, hsq_hi⟩ := howlOmr_sq_bounds homr_lo homr_hi
  have hr : howlR incc = 2 ^ 30 - howlOmr incc := rfl
  have ha1 := abs_howlcoef_a1_le (incc := incc) (by omega)
  rw [howlcoef_a2]
  omega

/-- Settles O55: the clipper is one odd, non-decreasing curve at the clamped input. -/
theorem softclipIsOddAndMonotone : Obligations.SoftclipIsOddAndMonotone := by
  refine ⟨fun x => ⟨softclip_of_ge, softclip_of_le, fun hlo hhi => ?_⟩, fun x => ?_,
    fun _ _ h => softclip_mono h⟩
  · exact softclip_of_between hlo hhi
  · obtain ⟨hlo, hhi⟩ := softclip_bounds x
    exact ⟨hlo, hhi, softclip_neg x⟩

end Sys2Proof.Proofs
end

section
/-!
SUPPORT. The spawner, the new grain and the step of a slot in the words of their registers (47_granular_spawner.md R88,
R89), for every pool, legal or not.
-/

namespace Sys2Proof.Machine

open Sys2Proof.Claims

/-! ## Natural numbers under the pseudocode's primitives -/

theorem u16_eq_toNat (l : BitVec 32) : u16 l = (l.setWidth 16).toNat := rfl

theorem wrap32_natCast (n : Nat) : wrap32 n = BitVec.ofNat 32 n := BitVec.ofInt_natCast 32 n

/-- The shift of a natural number is its quotient. -/
theorem asr_natCast (a n : Nat) : asr a n = (a / 2 ^ n : Nat) := by
  unfold asr
  push_cast
  rfl

/-! ## The step of one slot -/

theorem decayedAmp_eq (amp dec : BitVec 16) :
    BitVec.ofInt 16 (asr (uint amp * uint dec) 15) = BitVec.ofNat 16 (amp.toNat * dec.toNat / 32768) := by
  have hprod : uint amp * uint dec = (amp.toNat * dec.toNat : Nat) := (Nat.cast_mul _ _).symm
  rw [hprod, asr_natCast, BitVec.ofInt_natCast]
  rfl

theorem ofInt_uint_sub_one (v : BitVec 16) : BitVec.ofInt 16 (uint v - 1) = v - 1 := by
  rw [sub_eq_add_neg, BitVec.ofInt_add, uint, BitVec.ofInt_natCast, BitVec.ofNat_toNat, BitVec.setWidth_eq,
    BitVec.sub_eq_add_neg]
  rfl

theorem stepSlot_of_active {S : Slot} (h : S.act = true) :
    stepSlot S =
      let amp := BitVec.ofNat 16 (S.amp.toNat * S.dec.toNat / 32768)
      ({ act := !(decide (S.rem - 1 = 0) || decide (amp.toNat < 16)), ph := S.ph + S.inc, inc := S.inc, amp := amp,
         dec := S.dec, rem := S.rem - 1 }, sinlut (S.ph + S.inc) * S.amp.toNat / 32768) := by
  have hfloor : ∀ a : BitVec 16, uint a < Config.GRAN_AMP_FLOOR ↔ a.toNat < 16 := fun _ => Int.ofNat_lt
  simp only [stepSlot, if_pos h, advance_eq_add, decayedAmp_eq, ofInt_uint_sub_one, hfloor, Bool.decide_or]
  rfl

theorem stepped_stepSlot (S : Slot) : Stepped S (stepSlot S).1 (stepSlot S).2 := by
  refine ⟨fun h => ?_, fun h => ?_⟩
  · rw [stepSlot_inactive h]
    exact ⟨rfl, rfl⟩
  · rw [stepSlot_of_active h]
    exact ⟨rfl, rfl⟩

/-! ## The life of one slot -/

theorem stepSlot_rem {S : Slot} (h : S.act = true) : (stepSlot S).1.rem = S.rem - 1 := by
  rw [stepSlot_of_active h]

theorem stepSlot_act_of_last {S : Slot} (h : S.rem = 1) : (stepSlot S).1.act = false := by
  cases ha : S.act with
  | false => rw [stepSlot_inactive ha, ha]
  | true => simp [stepSlot_of_active ha, h]

/-- A slot with n + 1 samples left ends within them: it has ended already, or its step leaves it n. -/
theorem exists_stepSlot_iterate_inactive (n : Nat) {S : Slot} (h : S.rem.toNat = n + 1) :
    ∃ k, k ≤ n + 1 ∧ ((fun T => (stepSlot T).1)^[k] S).act = false := by
  induction n generalizing S with
  | zero =>
    have hlast : S.rem = 1 := BitVec.eq_of_toNat_eq h
    exact ⟨1, le_rfl, stepSlot_act_of_last hlast⟩
  | succ n ih =>
    cases ha : S.act with
    | false => exact ⟨0, Nat.zero_le _, ha⟩
    | true =>
      have hrem : (stepSlot S).1.rem.toNat = n + 1 := by
        rw [stepSlot_rem ha]
        bv_omega
      obtain ⟨k, hk, hact⟩ := ih hrem
      exact ⟨k + 1, Nat.succ_le_succ hk, hact⟩

/-! ## The lowest free slot -/

theorem lowestFree_eq_some {slot : Vector Slot 8} {k : Nat} (hk : k < 8) (hfree : slot[k].act = false)
    (hbelow : ∀ j, (hj : j < k) → slot[j].act = true) : lowestFree slot = some k := by
  refine List.findIdx?_eq_some_iff_getElem.mpr ⟨by simpa using hk, by simpa using hfree, fun j hj => ?_⟩
  simpa using hbelow j hj

theorem lowestFree_eq_none {slot : Vector Slot 8} (hfull : ∀ j, (hj : j < 8) → slot[j].act = true) :
    lowestFree slot = none := by
  refine List.findIdx?_eq_none_iff.mpr fun S hS => ?_
  obtain ⟨j, hj, rfl⟩ := List.mem_iff_getElem.mp hS
  simpa using hfull j (by simpa using hj)

/-! ## The new grain -/

/-- A draw scaled to a range: its base, and the floored share of its width. -/
theorem add_asr_u16_mul (l : BitVec 32) (base width : Nat) :
    (base : Int) + asr (u16 l * width) 16 = (base + (l.setWidth 16).toNat * width / 65536 : Nat) := by
  rw [u16_eq_toNat, ← Nat.cast_mul, asr_natCast, ← Nat.cast_add]
  rfl

theorem granInc_table (l : BitVec 32) :
    uint (INC_GRAN_MIN Config.table) +
        asr (u16 l * (uint (INC_GRAN_MAX Config.table) - uint (INC_GRAN_MIN Config.table))) 16 =
      (77913238 + (l.setWidth 16).toNat * 701219151 / 65536 : Nat) := by
  rw [INC_GRAN_MAX_table, INC_GRAN_MIN_table]
  exact add_asr_u16_mul l 77913238 701219151

theorem granDur_eq (l : BitVec 32) :
    Config.GRAN_DUR_MIN + asr (u16 l * (Config.GRAN_DUR_MAX - Config.GRAN_DUR_MIN + 1)) 16 =
      (220 + (l.setWidth 16).toNat * 883 / 65536 : Nat) :=
  add_asr_u16_mul l 220 883

theorem granAmp_eq (l : BitVec 32) :
    Config.GRAN_AMP_MIN + asr (u16 l * (Config.GRAN_AMP_MAX - Config.GRAN_AMP_MIN + 1)) 16 =
      (6554 + (l.setWidth 16).toNat * 13108 / 65536 : Nat) :=
  add_asr_u16_mul l 6554 13108

/-- The decay of any duration of at least 5 samples is at most 1, so the factor is a natural number. -/
theorem granDec_eq {dur : Nat} (h : 5 ≤ dur) :
    (32768 : Int) - Config.GRAN_K / dur = (32768 - 163840 / dur : Nat) := by
  have hdecay : 163840 / dur ≤ 32768 := Nat.div_le_of_le_mul (by omega)
  exact (Nat.cast_sub hdecay).symm

theorem newGrain_table (l1 l2 l3 : BitVec 32) :
    newGrain Config.table l1 l2 l3 =
      let dur := 220 + (l2.setWidth 16).toNat * 883 / 65536
      { act := true, ph := 0
        inc := BitVec.ofNat 32 (77913238 + (l1.setWidth 16).toNat * 701219151 / 65536)
        amp := BitVec.ofNat 16 (6554 + (l3.setWidth 16).toNat * 13108 / 65536)
        dec := BitVec.ofNat 16 (32768 - 163840 / dur)
        rem := BitVec.ofNat 16 dur } := by
  have hdur : 5 ≤ 220 + (l2.setWidth 16).toNat * 883 / 65536 := by omega
  rw [newGrain, granInc_table, granDur_eq, granAmp_eq, granDec_eq hdur, wrap32_natCast, BitVec.ofInt_natCast,
    BitVec.ofInt_natCast, BitVec.ofInt_natCast]

/-! ## The spawner -/

theorem spawn_of_free (c : Config) {q : Granular} {k : Nat} (htest : u16 (draw q.lfsr) < Config.GRAN_P_SPAWN)
    (hfree : lowestFree q.slot = some k) :
    spawn c q = ⟨draw (draw (draw (draw q.lfsr))), q.slot.setIfInBounds k
      (newGrain c (draw (draw q.lfsr)) (draw (draw (draw q.lfsr))) (draw (draw (draw (draw q.lfsr)))))⟩ := by
  unfold spawn
  dsimp only
  rw [if_pos htest, hfree]

theorem spawn_of_none (c : Config) {q : Granular}
    (h : ¬u16 (draw q.lfsr) < Config.GRAN_P_SPAWN ∨ lowestFree q.slot = none) :
    spawn c q = { q with lfsr := draw q.lfsr } := by
  unfold spawn
  dsimp only
  rcases h with htest | hfull
  · rw [if_neg htest]
  · rw [hfull, ite_self]

theorem spawned_spawn (q : Granular) : Spawned q (spawn Config.table q) := by
  have htest : u16 (draw q.lfsr) < Config.GRAN_P_SPAWN ↔ ((drawn q.lfsr).setWidth 16).toNat < 128 :=
    Int.ofNat_lt
  refine ⟨fun k hk hlow hfree hbelow => ?_, fun hnone => ?_⟩
  · rw [spawn_of_free _ (htest.mpr hlow) (lowestFree_eq_some hk hfree hbelow), newGrain_table,
      setIfInBounds_eq_set _ _ hk]
    exact ⟨rfl, rfl⟩
  · rw [spawn_of_none _ (hnone.imp htest.not.mpr lowestFree_eq_none)]
    exact ⟨rfl, rfl⟩

end Sys2Proof.Machine
end

section
/-!
PROOFS. The obligations of 47_granular_spawner.md.
-/

namespace Sys2Proof.Proofs

open Sys2Proof.Machine

/-- Settles O47: the pool between the spawner and the steps of its slots is the spawner's result. -/
theorem produceGranular : Obligations.ProduceGranular := by
  intro s hsel
  have hproduces := produces_runGenerator (x := .granular) hsel
  rw [runGenerator_granular] at hproduces
  refine ⟨spawn Config.table s.gen.granular, grainStep (spawn Config.table s.gen.granular),
    (spawn Config.table s.gen.granular).slot.map (fun S => (stepSlot S).2), spawned_spawn _, grainStep_lfsr _,
    fun k hk => ?_, ?_⟩
  · rw [Vector.getElem_map, grainStep_slot, mapSlots_getElem]
    exact stepped_stepSlot _
  · rw [Vector.toList_map]
    exact hproduces

/-- Settles O56, by induction on the samples the slot has left. -/
theorem grainsEndWithinTheirLifetime : Obligations.GrainsEndWithinTheirLifetime := by
  intro S _ hrem
  obtain ⟨n, hn⟩ := Nat.exists_eq_add_of_le' hrem
  rw [hn]
  exact exists_stepSlot_iterate_inactive n hn

end Sys2Proof.Proofs
end

section
/-!
SUPPORT. Every state has a next state (60_exceptions.md R105); runs without a reset, which PRODUCEs they hold, and what those
do to one generator (48_algorithm_multiplexer.md R92).
-/

namespace Sys2Proof.Machine

open Sys2Proof.Claims

/-! ## Every state has a next state -/

theorem runWord_input {w : Word} {s t : State} (h : runWord w s = .next t) : t.input = s.input := by
  obtain ⟨u, r, hu, ⟨hinput, -⟩, -⟩ := runWord_answered w s
  obtain rfl := Host.Outcome.next.inj (hu.symm.trans h)
  exact hinput

theorem step_of_fetch_run {s u : State} {w : Word} (h : s.fetch = .run w u) : step s = runWord w u := by
  rw [step, h]

theorem step_of_fetch_quiet {s t : State} (h : s.fetch = .quiet t) : step s = .next t := by
  rw [step, h]

theorem stepsOn (s : State) : s.StepsOn := by
  cases h : s.fetch with
  | quiet t => exact ⟨t, step_of_fetch_quiet h⟩
  | run w u =>
    obtain ⟨t, r, ht, -⟩ := runWord_answered w u
    exact ⟨t, (step_of_fetch_run h).trans ht⟩

/-- The first step of a run, and the run after it. -/
theorem exists_step_of_run_succ {s t : State} {n : Nat} (h : core.run (n + 1) s = .next t) :
    ∃ u, step s = .next u ∧ core.run n u = .next t := by
  obtain ⟨u, hu⟩ := stepsOn s
  exact ⟨u, hu, (run_succ_of_next n hu).symm.trans h⟩

/-! ## Runs without a reset -/

/-- Of the inputs to come, the first is gone in the state a word runs in; or it was two words, and port C's is left. -/
theorem fetch_run_input {s u : State} {w : Word} (h : s.fetch = .run w u) :
    ∃ e rest, s.input = e :: rest ∧ (u.input = rest ∨ ∃ wc, u.input = .command .portC wc :: rest) := by
  unfold State.fetch at h
  split at h
  case h_1 | h_5 => cases h
  case h_2 hinput => cases h; exact ⟨_, _, hinput, .inl rfl⟩
  case h_3 hinput => cases h; exact ⟨_, _, hinput, .inr ⟨_, rfl⟩⟩
  case h_4 hinput =>
    unfold State.receiveByte at h
    split at h
    · cases h; exact ⟨_, _, hinput, .inl rfl⟩
    · cases h

theorem noReset_of_cons {e : Event} {es : List Event} (h : NoReset (e :: es)) : NoReset es :=
  fun a b hmem => h a b (List.mem_cons_of_mem e hmem)

theorem noReset_cons_command {es : List Event} (h : NoReset es) (p : PortId) (w : Word) :
    NoReset (.command p w :: es) := by
  intro a b hmem
  rcases List.mem_cons.mp hmem with heq | hmem
  · cases heq
  · exact h a b hmem

theorem not_resetsTo_of_noReset {s t : State} (h : NoReset s.input) : ¬s.ResetsTo t := by
  rintro ⟨a, b, rest, hinput, -⟩
  exact h a b (hinput ▸ List.mem_cons_self)

/-- Every step leaves inputs that were already to come, or the port C word of two accepted in the same cycle. -/
theorem step_noReset {s t : State} (hstep : step s = .next t) (h : NoReset s.input) : NoReset t.input := by
  cases hf : s.fetch with
  | quiet u =>
    obtain rfl := Host.Outcome.next.inj ((step_of_fetch_quiet hf).symm.trans hstep)
    rcases fetch_quiet hf with ⟨-, rfl⟩ | ⟨p, b, rest, hinput, rfl, -⟩ | hreset
    · exact h
    · exact noReset_of_cons (hinput ▸ h)
    · exact absurd hreset (not_resetsTo_of_noReset h)
  | run w u =>
    rw [runWord_input ((step_of_fetch_run hf).symm.trans hstep)]
    obtain ⟨e, rest, hinput, hu⟩ := fetch_run_input hf
    have hrest : NoReset rest := noReset_of_cons (hinput ▸ h)
    rcases hu with hu | ⟨wc, hu⟩ <;> rw [hu]
    · exact hrest
    · exact noReset_cons_command hrest .portC wc

/-! ## The PRODUCEs of a run -/

theorem selects_iff {x : Selector} {s : State} :
    selects x s = true ↔ Runs s .produce ∧ Selector.ofCode s.sel = some x := by
  unfold selects Runs
  cases s.fetch with
  | quiet t => simp
  | run w u =>
    cases hd : decode w with
    | error e => simp [hd]
    | ok i => cases i <;> simp [hd]

theorem produced_succ {s t : State} (x : Selector) (n : Nat) (h : step s = .next t) :
    produced x (n + 1) s = (if selects x s = true then 1 else 0) + produced x n t := by
  rw [produced, h]

/-- The generators across a step that runs a PRODUCE, and across one that does not. -/
theorem step_gen_of_runs_produce {s t : State} (hstep : step s = .next t) (h : Runs s .produce) :
    t.gen = (generate Config.table s.sel s.gen).1 := by
  obtain ⟨w, u, hf, hd⟩ := h
  have hexec : exec .produce u = .next t :=
    (runWord_of_decode hd u).symm.trans ((step_of_fetch_run hf).symm.trans hstep)
  obtain ⟨hsel, -, hgen⟩ := fetch_run_sameRegisters hf
  obtain ⟨-, -, ht⟩ := exec_registers hexec
  rw [ht, hsel, hgen]

theorem step_gen_of_not_runs_produce {s t : State} (hstep : step s = .next t) (h : ¬Runs s .produce)
    (hreset : NoReset s.input) : t.gen = s.gen := by
  rcases step_gen_cases hstep with hsame | ⟨hruns, -⟩ | hr
  · exact hsame
  · exact absurd hruns h
  · exact absurd hr (not_resetsTo_of_noReset hreset)

section Component

variable {α : Type} {get : Generators → α} {next : α → α} {x : Selector}
variable (hrun : ∀ g y, get (runGenerator Config.table g y).1 = if y = x then next (get g) else get g)
include hrun

/-- One generator across a PRODUCE: it advances when SEL is its code, and stands still at every other code. -/
theorem generate_component (code : BitVec 8) (g : Generators) :
    get (generate Config.table code g).1 = if Selector.ofCode code = some x then next (get g) else get g := by
  cases hcode : Selector.ofCode code with
  | none => rw [generate_unsupported g hcode, if_neg (by simp)]
  | some y =>
    have hgen : generate Config.table code g = runGenerator Config.table g y := by simp [generate, hcode]
    simp only [hgen, hrun, Option.some.injEq]

/-- One generator across a step: it advances at a PRODUCE that selects it, and stands still otherwise. -/
theorem step_component {s t : State} (hstep : step s = .next t) (hreset : NoReset s.input) :
    get t.gen = if selects x s = true then next (get s.gen) else get s.gen := by
  by_cases hruns : Runs s .produce
  · rw [step_gen_of_runs_produce hstep hruns, generate_component hrun]
    simp only [selects_iff, hruns, true_and]
  · rw [step_gen_of_not_runs_produce hstep hruns hreset, if_neg fun hsel => hruns (selects_iff.mp hsel).1]

/-- One generator across a run: it advances once for each PRODUCE that selects it. -/
theorem run_component (n : Nat) {s t : State} (hreset : NoReset s.input) (h : core.run n s = .next t) :
    get t.gen = next^[produced x n s] (get s.gen) := by
  induction n generalizing s with
  | zero => cases h; rfl
  | succ n ih =>
    obtain ⟨u, hstep, hu⟩ := exists_step_of_run_succ h
    rw [produced_succ x n hstep, ih (step_noReset hstep hreset) hu, step_component hrun hstep hreset]
    split
    · rw [Nat.add_comm, Function.iterate_succ_apply]
    · rw [Nat.zero_add]

end Component

end Sys2Proof.Machine
end

section
/-!
SUPPORT. What a PRODUCE answers, a raw sample of zero, the range of each generator's raw sample
(48_algorithm_multiplexer.md R94, R95), and that a generator reads no other one's state (R92).
-/

namespace Sys2Proof.Machine

open Sys2Proof.Claims

/-! ## The sample of a PRODUCE -/

theorem answered_produceWith (c : Config) (s : State) : Answered s (produceWith c s) (wrap32 (sampleOf c s)) :=
  answered_respond _ rfl rfl (s.setGen_port _)

theorem tdiv_eq_zero_of_abs_lt {p n : Int} (h : |p| < n) : Int.tdiv p n = 0 := by
  obtain ⟨hlo, hhi⟩ := abs_lt.mp h
  rcases le_total 0 p with hp | hp
  · exact Int.tdiv_eq_zero_of_lt hp hhi
  · rw [← neg_eq_zero, ← Int.neg_tdiv]
    exact Int.tdiv_eq_zero_of_lt (by omega) (by omega)

/-- A product below one sample unit in magnitude is centred (49_gain_and_output_normalizer.md R98). -/
theorem normalizeSample_of_abs_lt {raw g m : Int} (h : |raw * g * m| < 2 ^ 30) : normalizeSample raw g m = 128 := by
  rw [normalizeSample_eq_outSample, outSample, tdiv_eq_zero_of_abs_lt h]
  decide

/-! ## An unsupported selector -/

theorem ofCode_eq_none {v : BitVec 8} (h : 0x0A ≤ v.toNat) : Selector.ofCode v = none := by
  revert v
  decide

/-- An unsupported selector gives raw 0 and advances nothing (R93). -/
theorem produceWith_of_unsupported (c : Config) {s : State} (h : Selector.ofCode s.sel = none) :
    produceWith c s = s.respond 0x00000080 := by
  have hsample : sampleOf c s = 128 := by
    rw [sampleOf, generate_unsupported _ h]
    exact normalizeSample_of_abs_lt (by simp)
  rw [produceWith, hsample, generate_unsupported _ h]
  rfl

/-! ## The ranges of the raw samples -/

theorem toInt16_bounds (v : BitVec 16) : -32768 ≤ v.toInt ∧ v.toInt ≤ 32767 :=
  ⟨v.le_toInt, Int.lt_add_one_iff.mp v.toInt_lt⟩

theorem pregSum_bounds (preg : Vector (BitVec 16) 16) : -524288 ≤ pregSum preg ∧ pregSum preg ≤ 524272 := by
  have hlen : (preg.toList.map BitVec.toInt).length = 16 := by simp
  have hmem : ∀ y ∈ preg.toList.map BitVec.toInt, -32768 ≤ y ∧ y ≤ 32767 := by
    intro y hy
    obtain ⟨v, -, rfl⟩ := List.mem_map.mp hy
    exact toInt16_bounds v
  have hlo := List.card_nsmul_le_sum _ (-32768) fun y hy => (hmem y hy).1
  have hhi := List.sum_le_card_nsmul _ 32767 fun y hy => (hmem y hy).2
  rw [hlen] at hlo hhi
  exact ⟨hlo, hhi⟩

/-- A slot adds a sine scaled by its amplitude, which is legally at most 19661 (R26). -/
theorem stepSlot_term_bounds {S : Slot} (h : S.Legal) : -19661 ≤ (stepSlot S).2 ∧ (stepSlot S).2 ≤ 19660 := by
  obtain ⟨hamp, -⟩ := h
  cases ha : S.act with
  | false => simp [stepSlot_inactive ha]
  | true =>
    have hterm : (stepSlot S).2 = asr (sinlut (S.ph + S.inc) * S.amp.toNat) 15 := by
      rw [stepSlot_of_active ha]; rfl
    obtain ⟨hlo, hhi⟩ := sinlut_bounds (S.ph + S.inc)
    rw [hterm]
    exact asr_bounds 15 (by nlinarith) (by nlinarith)

theorem grainMix_bounds {q : Granular} (h : q.SlotsLegal) : -157288 ≤ grainMix q ∧ grainMix q ≤ 157280 := by
  have hlen : (q.slot.toList.map fun S => (stepSlot S).2).length = 8 := by simp
  have hmem : ∀ y ∈ q.slot.toList.map fun S => (stepSlot S).2, -19661 ≤ y ∧ y ≤ 19660 := by
    intro y hy
    obtain ⟨S, hS, rfl⟩ := List.mem_map.mp hy
    exact stepSlot_term_bounds (h S hS)
  have hlo := List.card_nsmul_le_sum _ (-19661) fun y hy => (hmem y hy).1
  have hhi := List.sum_le_card_nsmul _ 19660 fun y hy => (hmem y hy).2
  rw [hlen] at hlo hhi
  exact ⟨hlo, hhi⟩

/-- The native scale of 127 keeps a Q1.15 value within a signed byte (R94). -/
theorem native_127_bounds {v : Int} (hlo : -32768 ≤ v) (hhi : v ≤ 32767) : -127 ≤ native v 127 ∧ native v 127 ≤ 126 :=
  native_bounds hlo hhi (by decide) (by decide) (by decide)

theorem genWhite_raw_bounds (x : White) : -127 ≤ (genWhite x).2 ∧ (genWhite x).2 ≤ 126 := by
  obtain ⟨hlo, hhi⟩ := s16_bounds (draw x.lfsr)
  exact native_127_bounds hlo hhi

theorem genPink_raw_bounds (x : Pink) : -127 ≤ (genPink x).2 ∧ (genPink x).2 ≤ 126 := by
  have hmean : ∀ preg, -32768 ≤ asr (pregSum preg) 4 ∧ asr (pregSum preg) 4 ≤ 32767 := fun preg => by
    obtain ⟨hlo, hhi⟩ := pregSum_bounds preg
    exact asr_bounds 4 (by omega) (by omega)
  exact native_127_bounds (hmean _).1 (hmean _).2

theorem genBrown_raw_bounds (x : Brown) : -127 ≤ (genBrown x).2 ∧ (genBrown x).2 ≤ 127 := by
  obtain ⟨hlo, hhi⟩ := clamp_bounds (lo := -32768) (hi := 32768)
    (asr (x.acc.toInt * Config.BROWN_DECAY) 15 + asr (s16 (draw x.lfsr)) Config.BROWN_STEP_SHIFT) (by decide)
  exact native_bounds hlo hhi (by decide) (by decide) (by decide)

theorem genBlue_raw_bounds (x : Blue) : -127 ≤ (genBlue x).2 ∧ (genBlue x).2 ≤ 126 := by
  obtain ⟨hlo, hhi⟩ := s16_bounds (draw x.lfsr)
  obtain ⟨hlo1, hhi1⟩ := toInt16_bounds x.x1
  have hfir : -32768 ≤ fir H_BLUE (s16 (draw x.lfsr)) x.x1.toInt x.x2.toInt ∧
      fir H_BLUE (s16 (draw x.lfsr)) x.x1.toInt x.x2.toInt ≤ 32767 := by
    rw [fir_H_BLUE]
    omega
  exact native_127_bounds hfir.1 hfir.2

theorem genViolet_raw_bounds (x : Violet) : -170 ≤ (genViolet x).2 ∧ (genViolet x).2 ≤ 169 := by
  obtain ⟨hlo, hhi⟩ := s16_bounds (draw x.lfsr)
  obtain ⟨hlo1, hhi1⟩ := toInt16_bounds x.x1
  obtain ⟨hlo2, hhi2⟩ := toInt16_bounds x.x2
  have hfir : -43692 ≤ fir H_VIOLET (s16 (draw x.lfsr)) x.x1.toInt x.x2.toInt ∧
      fir H_VIOLET (s16 (draw x.lfsr)) x.x1.toInt x.x2.toInt ≤ 43691 := by
    rw [fir_H_VIOLET]
    omega
  exact native_bounds hfir.1 hfir.2 (by decide) (by decide) (by decide)

theorem genSine_raw_bounds (c : Config) (x : Sine) : -127 ≤ (genSine c x).2 ∧ (genSine c x).2 ≤ 126 := by
  obtain ⟨hlo, hhi⟩ := sinlut_bounds (wrap32 (uint x.ph + uint (INC_SINE c) + jitter (draw x.lfsr)))
  exact native_127_bounds (by omega) hhi

theorem genAm_raw_bounds {c : Config} (h0 : 0 ≤ c.amDmin) (h1 : c.amDmin < 32768) (x : AmTremolo) :
    -127 ≤ (genAm c x).2 ∧ (genAm c x).2 ≤ 126 := by
  obtain ⟨hlo, hhi⟩ := sinlut_bounds (advance x.cph (INC_AM_C c))
  obtain ⟨hlfo_lo, hlfo_hi⟩ := sinlut_bounds (advance x.lph (INC_AM_L c))
  obtain ⟨henv_lo, henv_hi⟩ := amenv_bounds h1 hlfo_lo hlfo_hi
  obtain ⟨hy_lo, hy_hi⟩ := ammul_bounds hlo hhi (by omega) henv_hi
  exact native_127_bounds (by omega) (by omega)

theorem genRing_raw_bounds (c : Config) (x : RingMod) : -127 ≤ (genRing c x).2 ∧ (genRing c x).2 ≤ 126 := by
  obtain ⟨hlo, hhi⟩ := sinlut_bounds (advance x.pha (INC_RING_A c))
  obtain ⟨hlo', hhi'⟩ := sinlut_bounds (advance x.phb (INC_RING_B c))
  obtain ⟨hy_lo, hy_hi⟩ := ammul_bounds hlo hhi hlo' hhi'
  exact native_127_bounds (by omega) (by omega)

theorem genHowl_raw_bounds (c : Config) (x : FeedbackHowl) : -120 ≤ (genHowl c x).2 ∧ (genHowl c x).2 ≤ 120 :=
  native_bounds (softclip_bounds _).1 (softclip_bounds _).2 (by decide) (by decide) (by decide)

theorem genGran_raw_bounds (c : Config) {x : Granular} (h : x.SlotsLegal) :
    -529 ≤ (genGran c x).2 ∧ (genGran c x).2 ≤ 527 := by
  obtain ⟨hlo, hhi⟩ := grainMix_bounds (spawn_slotsLegal c h)
  exact native_bounds hlo hhi (by decide) (by decide) (by decide)

/-- The table of R95. Only GRANULAR's range leans on the state being legal. -/
theorem runGenerator_raw_mem_rawRange {g : Generators} (h : g.granular.SlotsLegal) (x : Selector) :
    (rawRange x).1 ≤ (runGenerator Config.table g x).2 ∧ (runGenerator Config.table g x).2 ≤ (rawRange x).2 := by
  cases x with
  | white => exact genWhite_raw_bounds g.white
  | pink => exact genPink_raw_bounds g.pink
  | brown => exact genBrown_raw_bounds g.brown
  | blue => exact genBlue_raw_bounds g.blue
  | violet => exact genViolet_raw_bounds g.violet
  | sine => exact genSine_raw_bounds _ g.sine
  | amTremolo => exact genAm_raw_bounds (by decide) (by decide) g.amTremolo
  | ringMod => exact genRing_raw_bounds _ g.ringMod
  | feedbackHowl => exact genHowl_raw_bounds _ g.feedbackHowl
  | granular => exact genGran_raw_bounds _ h

/-! ## What a generator reads -/

/-- A generator's next state and its raw sample depend on its own state alone (R92). -/
theorem runGenerator_agreeOn (c : Config) {x : Selector} {g h : Generators} (hx : agreeOn x g h) :
    agreeOn x (runGenerator c g x).1 (runGenerator c h x).1 ∧ (runGenerator c g x).2 = (runGenerator c h x).2 := by
  cases x <;> simp only [agreeOn] at hx <;> simp [agreeOn, hx]

end Sys2Proof.Machine
end

section
/-!
PROOFS. The obligations of 48_algorithm_multiplexer.md.
-/

namespace Sys2Proof.Proofs

open Sys2Proof.Machine

/-- Settles O37, generator by generator, by induction on the steps. -/
theorem generatorsAdvanceOnlyWhenSelected : Obligations.GeneratorsAdvanceOnlyWhenSelected := by
  intro n s t hreset h
  exact ⟨run_component (runGenerator_gen_white _) n hreset h, run_component (runGenerator_gen_pink _) n hreset h,
    run_component (runGenerator_gen_brown _) n hreset h, run_component (runGenerator_gen_blue _) n hreset h,
    run_component (runGenerator_gen_violet _) n hreset h, run_component (runGenerator_gen_sine _) n hreset h,
    run_component (runGenerator_gen_amTremolo _) n hreset h, run_component (runGenerator_gen_ringMod _) n hreset h,
    run_component (runGenerator_gen_feedbackHowl _) n hreset h,
    run_component (runGenerator_gen_granular _) n hreset h⟩

/-- Settles O30: an unsupported selector's sample is that of raw 0, and its answer is all that PRODUCE does. -/
theorem unsupportedSelectorIsSilent : Obligations.UnsupportedSelectorIsSilent :=
  fun _ h => onlyAnswers_of_respond (congrArg Host.Outcome.next (produceWith_of_unsupported _ (ofCode_eq_none h)))

/-- Settles O35, generator by generator. -/
theorem rawSamplesAreBounded : Obligations.RawSamplesAreBounded := by
  rintro g x ⟨-, -, -, hslots⟩
  rw [generate_code]
  exact runGenerator_raw_mem_rawRange hslots x

/-- Settles O36: the selected generator runs alike in both states, and the gain stage reads SEL and MG. -/
theorem produceReadsOnlyItsGenerator : Obligations.ProduceReadsOnlyItsGenerator := by
  intro s u x hs hu hmg hx
  obtain ⟨hgen, hraw⟩ := runGenerator_agreeOn Config.table hx
  have hsample : sampleOf Config.table s = sampleOf Config.table u := by
    rw [sampleOf, sampleOf, hs, hu, hmg, generate_code, generate_code, hraw]
  refine ⟨_, _, wrap32 (sampleOf Config.table s), rfl, rfl, ?_, answered_produceWith _ s, ?_⟩
  · rwa [produceWith, produceWith, State.respond_gen, State.respond_gen, State.setGen_gen, State.setGen_gen, hs, hu,
      generate_code, generate_code]
  · rw [hsample]
    exact answered_produceWith _ u

end Sys2Proof.Proofs
end

section
/-!
SUPPORT. Halving a truncated quotient, what the clamp leaves of it, and that no generator reads the gain table
(49_gain_and_output_normalizer.md R97, R98, R101).
-/

namespace Sys2Proof.Machine

open Sys2Proof.Claims

/-! ## Truncation and the clamp -/

/-- Of a dividend that is not negative the truncated quotient is the floor, and the doubled dividend's is the doubled
quotient or one more. For a negative dividend both quotients change their sign. -/
theorem tdiv_two_mul_sub_mem (p : Int) :
    Int.tdiv (2 * p) (2 ^ 30) - 2 * Int.tdiv p (2 ^ 30) ∈ ({-1, 0, 1} : Set Int) := by
  have hnonneg : ∀ q : Int, 0 ≤ q → 0 ≤ Int.tdiv (2 * q) (2 ^ 30) - 2 * Int.tdiv q (2 ^ 30) ∧
      Int.tdiv (2 * q) (2 ^ 30) - 2 * Int.tdiv q (2 ^ 30) ≤ 1 := by
    intro q hq
    rw [Int.tdiv_eq_ediv_of_nonneg (by omega), Int.tdiv_eq_ediv_of_nonneg hq]
    omega
  have hbounds : -1 ≤ Int.tdiv (2 * p) (2 ^ 30) - 2 * Int.tdiv p (2 ^ 30) ∧
      Int.tdiv (2 * p) (2 ^ 30) - 2 * Int.tdiv p (2 ^ 30) ≤ 1 := by
    rcases le_total 0 p with hp | hp
    · obtain ⟨hlo, hhi⟩ := hnonneg p hp
      omega
    · obtain ⟨hlo, hhi⟩ := hnonneg (-p) (by omega)
      rw [mul_neg, Int.neg_tdiv, Int.neg_tdiv] at hlo hhi
      omega
  rw [Set.mem_insert_iff, Set.mem_insert_iff, Set.mem_singleton_iff]
  omega

/-- R101, with the even gain written as twice its half. -/
theorem tdiv_double_gain_sub_mem (raw g m : Int) :
    Int.tdiv (raw * (2 * g) * m) (2 ^ 30) - 2 * Int.tdiv (raw * g * m) (2 ^ 30) ∈ ({-1, 0, 1} : Set Int) := by
  have hdouble : raw * (2 * g) * m = 2 * (raw * g * m) := by ring
  rw [hdouble]
  exact tdiv_two_mul_sub_mem _

/-- Where the clamp does not cut, the sample's deviation from 128 is the truncated product. -/
theorem outSample_sub_of_mem {raw g m : Int} (hlo : -128 ≤ Int.tdiv (raw * g * m) (2 ^ 30))
    (hhi : Int.tdiv (raw * g * m) (2 ^ 30) ≤ 127) : outSample raw g m - 128 = Int.tdiv (raw * g * m) (2 ^ 30) := by
  unfold outSample
  omega

theorem sampleOf_eq_outSample (c : Config) (s : State) :
    sampleOf c s = outSample (generate c s.sel s.gen).2 (romNg c s.sel).toNat s.mg.toNat :=
  normalizeSample_eq_outSample ..

/-! ## The gain table and the generators -/

theorem hzToInc_congr {c c' : Config} (h : c'.fs = c.fs) (fRaw : Nat) : hzToInc c' fRaw = hzToInc c fRaw := by
  rw [hzToInc, hzToInc, h]

theorem newGrain_congr {c c' : Config} (h : c'.fs = c.fs) : newGrain c' = newGrain c := by
  have hmin : INC_GRAN_MIN c' = INC_GRAN_MIN c := hzToInc_congr h _
  have hmax : INC_GRAN_MAX c' = INC_GRAN_MAX c := hzToInc_congr h _
  funext lInc lDur lAmp
  rw [newGrain, hmin, hmax, newGrain]

theorem spawn_congr {c c' : Config} (h : c'.fs = c.fs) (q : Granular) : spawn c' q = spawn c q := by
  unfold spawn
  rw [newGrain_congr h]

/-- The sample rate and the envelope floor are all that a generator reads of the configuration. -/
theorem runGenerator_congr {c c' : Config} (hfs : c'.fs = c.fs) (hfloor : c'.amDmin = c.amDmin) (g : Generators)
    (x : Selector) : runGenerator c' g x = runGenerator c g x := by
  have hinc := hzToInc_congr hfs
  cases x with
  | white => simp only [runGenerator_white]
  | pink => simp only [runGenerator_pink]
  | brown => simp only [runGenerator_brown]
  | blue => simp only [runGenerator_blue]
  | violet => simp only [runGenerator_violet]
  | sine => simp only [runGenerator_sine, genSine, INC_SINE, hinc]
  | amTremolo => simp only [runGenerator_amTremolo, genAm, amenv, INC_AM_C, INC_AM_L, hinc, hfloor]
  | ringMod => simp only [runGenerator_ringMod, genRing, INC_RING_A, INC_RING_B, hinc]
  | feedbackHowl =>
    simp only [runGenerator_feedbackHowl, genHowl, howlCentre, INC_HOWL_LO, INC_HOWL_HI, INC_HOWL_SWEEP, hinc]
  | granular => simp only [runGenerator_granular, genGran, spawn_congr hfs]

theorem generate_congr {c c' : Config} (hfs : c'.fs = c.fs) (hfloor : c'.amDmin = c.amDmin) (code : BitVec 8)
    (g : Generators) : generate c' code g = generate c code g := by
  unfold generate
  simp only [runGenerator_congr hfs hfloor]

end Sys2Proof.Machine
end

section
/-!
PROOFS. The obligations of 49_gain_and_output_normalizer.md.
-/

namespace Sys2Proof.Proofs

open Sys2Proof.Machine

/-- Settles O31: the product with a gain of 0 is 0, and the generators do not read MG. -/
theorem zeroMasterGainMutes : Obligations.ZeroMasterGainMutes := by
  intro s hmg
  have hsample : sampleOf Config.table s = 128 := by
    rw [sampleOf, hmg]
    exact normalizeSample_of_abs_lt (by simp [uint])
  have hanswered := answered_produceWith Config.table s
  rw [hsample] at hanswered
  obtain ⟨hsel, hmg', hgen⟩ := exec_registers (i := .produce) (s := s) rfl
  refine ⟨_, rfl, hanswered, hsel, hmg'.trans hmg, fun m u hu => ?_⟩
  obtain ⟨-, -, hgen'⟩ := exec_registers hu
  exact hgen'.trans hgen.symm

/-- Settles O32: truncation toward zero is odd, so only the clamp, whose ends are not opposite, breaks the symmetry. -/
theorem normalizerIsSymmetric : Obligations.NormalizerIsSymmetric := by
  intro raw g m
  rw [normalizeSample_eq_outSample]
  obtain ⟨hlo, hhi⟩ := outSample_bounds raw g m
  refine ⟨hlo, hhi, fun h => ?_, fun h => normalizeSample_eq_outSample raw g m ▸ normalizeSample_of_abs_lt h⟩
  obtain ⟨hneg, hpos⟩ := abs_le.mp h
  have hodd : Int.tdiv (-raw * g * m) (2 ^ 30) = -Int.tdiv (raw * g * m) (2 ^ 30) := by
    rw [neg_mul, neg_mul, Int.neg_tdiv]
  rw [normalizeSample_eq_outSample, outSample_sub_of_mem (by omega) hpos,
    outSample_sub_of_mem (by omega) (by omega), hodd, neg_neg]

/-- Settles O33: the doubled product is truncated to twice the quotient or one unit beside it, and the half gain's value
is not clamped where the whole gain's is not. -/
theorem gainIsLinear : Obligations.GainIsLinear := by
  refine ⟨fun raw g m heven => ?_, fun c table' s => ?_⟩
  · have hhalf : g = 2 * (g / 2) := by omega
    have hmem := tdiv_double_gain_sub_mem raw (g / 2) m
    rwa [← hhalf] at hmem
  · intro c' d hgain hlo hhi
    have hmem := tdiv_double_gain_sub_mem (generate c s.sel s.gen).2 (romNg c' s.sel).toNat s.mg.toNat
    have hdouble : (2 * (romNg c' s.sel).toNat : Int) = (romNg c s.sel).toNat := by omega
    have hgenerate : generate c' s.sel s.gen = generate c s.sel s.gen :=
      generate_congr (c := c) (c' := c') rfl rfl s.sel s.gen
    rw [hdouble] at hmem
    have hcases := hmem
    rw [Set.mem_insert_iff, Set.mem_insert_iff, Set.mem_singleton_iff] at hcases
    rw [sampleOf_eq_outSample, sampleOf_eq_outSample, hgenerate, outSample_sub_of_mem hlo hhi,
      outSample_sub_of_mem (by omega) (by omega)]
    exact hmem

end Sys2Proof.Proofs
end

section
/-!
SUPPORT. Which words are illegal and for which cause, and the step of one word at either port (60_exceptions.md R103, R107).
-/

namespace Sys2Proof

variable (w : Word)

/-- An opcode is reserved, or defined with one of the three formats. -/
theorem opField_format_cases :
    7 ≤ (opField w).toNat ∨ (opField w = 0x00 ∨ opField w = 0x01 ∨ opField w = 0x03 ∨ opField w = 0x05) ∨
      (opField w = 0x02 ∨ opField w = 0x06) ∨ opField w = 0x04 := by
  have h := opField_cases w
  tauto

theorem decode_eq_reservedOpcode_iff : decode w = .error .reservedOpcode ↔ 0x07 ≤ (opField w).toNat := by
  refine ⟨fun h => ?_, decode_reserved w⟩
  rcases opField_format_cases w with hop | hop | hop | hop
  · exact hop
  · rw [decode_formatZ w hop] at h
    split at h <;> cases h
  · rw [decode_formatS8 w hop] at h
    split at h <;> cases h
  · rw [decode_formatG24 w hop] at h
    cases h

theorem decode_eq_nonzeroMbz_iff : decode w = .error .nonzeroMbz ↔
    (opField w ∈ [0x00#8, 0x01#8, 0x03#8, 0x05#8] ∧ opndField w ≠ 0) ∨
      (opField w ∈ [0x02#8, 0x06#8] ∧ mbzS8Field w ≠ 0) := by
  have hreserved : 7 ≤ (opField w).toNat →
      opField w ∉ [0x00#8, 0x01#8, 0x03#8, 0x05#8] ∧ opField w ∉ [0x02#8, 0x06#8] := by
    generalize opField w = op
    revert op
    decide
  rcases opField_format_cases w with hop | hop | hop | hop
  · simp [decode_reserved w hop, hreserved hop]
  · rw [decode_formatZ w hop]
    rcases hop with hop | hop | hop | hop <;> simp [hop]
  · rw [decode_formatS8 w hop]
    rcases hop with hop | hop <;> simp [hop]
  · simp [decode_formatG24 w hop, hop]

end Sys2Proof

namespace Sys2Proof.Machine

/-- An illegal word does nothing but give its error response (R102). -/
theorem runWord_of_decode_error {w : Word} {e : CmdError} (h : decode w = .error e) (s : State) :
    runWord w s = .next (s.respond (errWord e)) := by
  rw [runWord, h]
  rfl

/-- A command, whatever port it was accepted at: it writes the same registers and generators, and the same response goes
out at that port. -/
theorem exec_accept (i : Instr) (s : State) :
    ∃ (u : State) (r : Word), (∀ q, u.port q = s.port q) ∧
      ∀ p es, exec i (s.accept p es) = .next ((u.accept p es).respond r) := by
  cases i with
  | nop => exact ⟨s, 0, fun _ => rfl, fun _ _ => rfl⟩
  | produce =>
    exact ⟨s.setGen (generate Config.table s.sel s.gen).1, wrap32 (sampleOf Config.table s), s.setGen_port _,
      fun _ _ => rfl⟩
  | setsel v => exact ⟨s.setSel v, 0, s.setSel_port v, fun _ _ => rfl⟩
  | getsel => exact ⟨s, okWord (s.sel.setWidth 16), fun _ => rfl, fun _ _ => rfl⟩
  | setmg v =>
    exact ⟨s.setMg (BitVec.ofInt 16 (clampMG (gainOperand v))), 0, s.setMg_port _, fun _ _ => rfl⟩
  | getmg => exact ⟨s, okWord s.mg, fun _ => rfl, fun _ _ => rfl⟩
  | getng v => exact ⟨s, okWord (romNg Config.table v), fun _ => rfl, fun _ _ => rfl⟩

/-- The step of a word, command or not, at either port (R107). -/
theorem step_command_accept (s : State) (w : Word) (es : List Event) :
    ∃ (u : State) (r : Word), (∀ q, u.port q = s.port q) ∧
      ∀ p, step (s.setInput (.command p w :: es)) = .next ((u.accept p es).respond r) := by
  cases hd : decode w with
  | ok i =>
    obtain ⟨u, r, hport, hexec⟩ := exec_accept i s
    exact ⟨u, r, hport, fun p => (runWord_of_decode hd _).trans (hexec p es)⟩
  | error e => exact ⟨s, errWord e, fun _ => rfl, fun p => runWord_of_decode_error hd _⟩

end Sys2Proof.Machine
end

section
/-!
PROOFS. The obligations of 60_exceptions.md.
-/

namespace Sys2Proof.Proofs

open Sys2Proof.Machine

/-- Settles O3: the decoder's two errors, format by format. -/
theorem illegalWordsHaveOneCause : Obligations.IllegalWordsHaveOneCause :=
  fun w => ⟨decode_eq_reservedOpcode_iff w, decode_eq_nonzeroMbz_iff w, rfl, rfl⟩

/-- Settles O11: the error response is all that the step of an illegal word does. -/
theorem errorWordsAreAnsweredAndChangeNothing : Obligations.ErrorWordsAreAnsweredAndChangeNothing := by
  intro s p w rest e hd
  obtain ⟨hinput, -, hrx, hown, hother⟩ := answered_respond_self (errWord e) (s.accept p rest)
  simp only [State.accept_input, State.accept_cur, State.accept_port] at hinput hrx hown hother
  refine ⟨_, runWord_of_decode_error hd (s.accept p rest), ?_, ?_, ?_, hinput, ?_, hrx, hother⟩
  · rw [State.respond_sel, State.accept_sel]
  · rw [State.respond_mg, State.accept_mg]
  · rw [State.respond_gen, State.accept_gen]
  · cases e <;> exact hown

/-- Settles O14: idle ports, a byte, a reset and every word, legal or not, have a next state. -/
theorem everyStateHasANextState : Obligations.EveryStateHasANextState :=
  stepsOn

/-- Settles O16: what a word does but for its port is said without its port. -/
theorem portsAreEqual : Obligations.PortsAreEqual := by
  intro s t u w rest ht hu
  obtain ⟨v, r, hport, hstep⟩ := step_command_accept s w rest
  obtain rfl := Host.Outcome.next.inj ((hstep .portS).symm.trans ht)
  obtain rfl := Host.Outcome.next.inj ((hstep .portC).symm.trans hu)
  have hS : v.portS = s.portS := hport .portS
  have hC : v.portC = s.portC := hport .portC
  simp only [State.respond_sel, State.respond_mg, State.respond_gen, State.respond_input, State.accept_sel,
    State.accept_mg, State.accept_gen, State.accept_input, true_and]
  exact ⟨r, by rw [← hS]; rfl, by rw [← hC]; rfl, by rw [← hC]; rfl, by rw [← hS]; rfl⟩

end Sys2Proof.Proofs
end

section
/-!
SUPPORT. How the observation of an infinite run grows from one finite beginning to the next (70_reset_and_hazards.md R117).
-/

namespace Sys2Proof.Machine

/-- One input, presented by itself: no response is taken back, and a word at port p is answered there. -/
theorem present_singleton (s : State) (e : Event) :
    ∃ t, s.present [e] = .next t ∧ Extends s t ∧
      ∀ p, e.hasWordAt p = true → (s.port p).responses.length < (t.port p).responses.length := by
  obtain ⟨c, t, hc, hrun, hextends, hgrows⟩ := run_event s e
  refine ⟨t.setInput [], run_of_le_of_idle hc (hrun []) rfl, fun p => ?_, fun p hp => ?_⟩
  · rw [State.setInput_port]
    exact hextends p
  · rw [State.setInput_port]
    exact hgrows p hp

theorem responsesTo_of_present {s t : State} {es : List Event} (h : s.present es = .next t) (p : PortId) :
    s.responsesTo p es = (t.port p).responses := by
  rw [State.responsesTo, h]

/-- One more input: the responses so far stay, and a word at port p adds to them. -/
theorem responsesTo_concat (s : State) (p : PortId) (es : List Event) (e : Event) :
    s.responsesTo p es <+: s.responsesTo p (es ++ [e]) ∧
      (e.hasWordAt p = true → (s.responsesTo p es).length < (s.responsesTo p (es ++ [e])).length) := by
  obtain ⟨t, ht, -, happend⟩ := present_append s es
  obtain ⟨u, hu, hextends, hgrows⟩ := present_singleton t e
  rw [responsesTo_of_present ht, responsesTo_of_present ((happend [e]).trans hu)]
  exact ⟨hextends p, hgrows p⟩

section Observation

variable (s : State) (p : PortId) (es : Nat → Event)

theorem observation_succ (n : Nat) :
    s.observation p es (n + 1) = s.responsesTo p ((List.range n).map es ++ [es n]) := by
  rw [State.observation, List.range_succ, List.map_append, List.map_singleton]

theorem observation_prefix_succ (n : Nat) : s.observation p es n <+: s.observation p es (n + 1) := by
  rw [observation_succ]
  exact (responsesTo_concat s p _ _).1

theorem observation_length_lt_succ {n : Nat} (h : (es n).hasWordAt p = true) :
    (s.observation p es n).length < (s.observation p es (n + 1)).length := by
  rw [observation_succ]
  exact (responsesTo_concat s p _ _).2 h

theorem observation_prefix_of_le {n m : Nat} (h : n ≤ m) : s.observation p es n <+: s.observation p es m := by
  induction m, h using Nat.le_induction with
  | base => exact List.prefix_rfl
  | succ m _ ih => exact ih.trans (observation_prefix_succ s p es m)

/-- Where words keep coming, there is a beginning with more than k responses. -/
theorem exists_lt_observation_length (h : ∀ n, ∃ m, n ≤ m ∧ (es m).hasWordAt p = true) (k : Nat) :
    ∃ n, k < (s.observation p es n).length := by
  induction k with
  | zero =>
    obtain ⟨m, -, hword⟩ := h 0
    exact ⟨m + 1, Nat.zero_lt_of_lt (observation_length_lt_succ s p es hword)⟩
  | succ k ih =>
    obtain ⟨n, hn⟩ := ih
    obtain ⟨m, hm, hword⟩ := h n
    have hle := (observation_prefix_of_le s p es hm).length_le
    have hlt := observation_length_lt_succ s p es hword
    exact ⟨m + 1, by omega⟩

end Observation

/-- A response of a beginning is a response of every longer one. -/
theorem observation_getElem?_of_le {s : State} {p : PortId} {es : Nat → Event} {n m k : Nat} {r : Word} (h : n ≤ m)
    (hr : (s.observation p es n)[k]? = some r) : (s.observation p es m)[k]? = some r := by
  obtain ⟨hk, rfl⟩ := List.getElem?_eq_some_iff.mp hr
  exact List.prefix_iff_getElem?.mp (observation_prefix_of_le s p es h) k hk

/-- Two beginnings agree on response k, since a third is longer than both. -/
theorem observes_unique {s : State} {p : PortId} {es : Nat → Event} {k : Nat} {a b : Word}
    (ha : s.Observes p es k a) (hb : s.Observes p es k b) : a = b := by
  obtain ⟨n, hn⟩ := ha
  obtain ⟨m, hm⟩ := hb
  have hna := observation_getElem?_of_le (le_max_left n m) hn
  have hmb := observation_getElem?_of_le (le_max_right n m) hm
  exact Option.some.inj (hna.symm.trans hmb)

end Sys2Proof.Machine
end

section
/-!
PROOFS. The obligations of 70_reset_and_hazards.md.
-/

namespace Sys2Proof.Proofs

open Sys2Proof.Machine

/-- Settles O12: with no input to come the fetch is quiet, and the state is left as it is. -/
theorem idlePortsChangeNothing : Obligations.IdlePortsChangeNothing := by
  intro s h
  exact (run_one s).symm.trans (run_idle h 1)

/-- Settles O58: each input only adds responses, and each word at the port adds one. -/
theorem infiniteRunsAreObserved : Obligations.InfiniteRunsAreObserved := by
  refine fun s p es => ⟨fun n m => observation_prefix_of_le s p es, fun hwords k => ?_⟩
  obtain ⟨n, hn⟩ := exists_lt_observation_length s p es hwords k
  exact ⟨_, ⟨n, List.getElem?_eq_getElem hn⟩, fun r hr => observes_unique hr ⟨n, List.getElem?_eq_getElem hn⟩⟩

/-- Settles O13: the state after reset is that of R113's table, but for the record of each port. -/
theorem resetSetsEveryState : Obligations.ResetSetsEveryState := by
  intro s inS inC rest
  refine ⟨s.assertReset rest, rfl, rfl, rfl, rfl, fun p => ?_, rfl⟩
  exact ⟨s.assertReset_port_responses rest p, s.assertReset_port_rx rest p⟩

end Sys2Proof.Proofs
end
